-- ==== Sys2Proof/Word.lean ====
section
/-! DEFINITION. The bit-vector types the spec's values have (spec/00_scope.md R9, R13; spec/10_state.md R28; spec/30_encoding.md R60). -/

namespace Sys2Proof

/-- A data byte, a header byte or a stream byte: 8 bits. -/
abbrev Byte := BitVec 8

/-- A host byte sequence, first byte first (R13). -/
abbrev Bytes := List Byte

/-- A header value, CMF in bits 15:8 and FLG in bits 7:0 (R24, R25): 16 bits. -/
abbrev HeaderWord := BitVec 16

/-- An accumulator, the output `VALUE`, a seed or the operand `ARG`: 32 bits (R21, R23, R60). -/
abbrev Word := BitVec 32

/-- A command word `CW = OP ‖ ARG`: 40 bits (R60). -/
abbrev CommandWord := BitVec 40

end Sys2Proof
end

