-- ==== Sys2Proof/Syntax.lean ====
section
/-! DEFINITION. The nine commands of spec/30_encoding.md R62, with the operands R63 gives them. -/

namespace Sys2Proof

/-- A compression-level hint: `levelCode ∈ {0,1,2,3}` for none, fast, balanced, best (spec/42_header_codec.md R130). -/
inductive Level where
  | none
  | fast
  | balanced
  | best
  deriving DecidableEq, Repr

/-- One command. Operand widths are those of R63, so every term is a command that some legal command word spells. -/
inductive Instr where
  /-- ADLER_INIT: start a new checksum (R101). -/
  | adlerInit
  /-- ADLER_SEED seed: resume a checksum (R102). -/
  | adlerSeed (seed : Word)
  /-- ADLER_UPDATE0: absorb no byte, reduce (R104). -/
  | adlerUpdate0
  /-- ADLER_UPDATE1 b0 (R104). -/
  | adlerUpdate1 (b0 : Byte)
  /-- ADLER_UPDATE2 b0, b1 (R104). -/
  | adlerUpdate2 (b0 b1 : Byte)
  /-- ADLER_UPDATE3 b0, b1, b2 (R104). -/
  | adlerUpdate3 (b0 b1 b2 : Byte)
  /-- ADLER_UPDATE4 b0, b1, b2, b3 (R104). -/
  | adlerUpdate4 (b0 b1 b2 b3 : Byte)
  /-- HDR_ENCODE level: produce a ZLIB header (R130). -/
  | hdrEncode (level : Level)
  /-- HDR_DECODE cmf, flg: validate a ZLIB header (R135). -/
  | hdrDecode (cmf flg : Byte)
  deriving DecidableEq, Repr

/-- The mnemonics of the nine rows of spec/opcode_table.json. -/
inductive Mnemonic where
  | adlerInit
  | adlerSeed
  | adlerUpdate0
  | adlerUpdate1
  | adlerUpdate2
  | adlerUpdate3
  | adlerUpdate4
  | hdrEncode
  | hdrDecode
  deriving DecidableEq, Repr

end Sys2Proof
end

