-- ==== Sys2Proof/Config.lean ====
section
/-! DEFINITION. The parameters of spec/00_scope.md R8: those the hardware fixes as numbers, those the spec leaves OPEN as an opaque
constant (`BLOCK_BASE`) or as an argument of the host sequences (the DEFLATE codec). -/

namespace Sys2Proof.Config

/-- `MOD_ADLER` (R8, R100): both accumulators are reduced by it. -/
abbrev modAdler : Nat := 65521

/-- `MOD_HDR` (R8): a valid header value is a multiple of it. -/
abbrev modHdr : Nat := 31

/-- The largest reduction interval `NMAX` may name (R8, R110). The schedule is not observable and no meaning reads this number. -/
def nmaxBound : Nat := 5552

/-- `UPDATE_LANES` (R8): how many bytes one ADLER_UPDATEn carries at most. -/
def updateLanes : Nat := 4

/-- `BLOCK_BASE` (R8, R47): OPEN, the platform's address of the port bundle where it is memory-mapped. No rule reads it. DESIGN CHOICE,
safe (log 7). -/
opaque blockBase : Option Nat

/-- The external DEFLATE codec (R8, R160, D33): OPEN. An argument of the envelope sequences, so that a statement about them holds for
every codec; `ε` is the codec's own error type, opaque to this spec (R170). DESIGN CHOICE, safe (log 6). -/
structure DeflateCodec (ε : Type) where
  /-- `compress(bytes, level) -> bytes`, which never fails. -/
  compress : Bytes → Level → Bytes
  /-- `decompress(bytes) -> bytes throws DecodeError`. -/
  decompress : Bytes → Except ε Bytes

/-- The codec law, which the spec uses only as a premise and never assumes (R173). -/
def DeflateCodec.Law {ε : Type} (codec : DeflateCodec ε) : Prop :=
  ∀ (x : Bytes) (l : Level), codec.decompress (codec.compress x l) = .ok x

end Sys2Proof.Config
end

