-- ==== Sys2Proof/WellFormed.lean ====
section
/-! DEFINITION. What is well formed: a command WORD, said twice and independently of the decoder (the match and mask rows of
spec/opcode_table.json; the reserved-zero bits of spec/30_encoding.md R62 to R65), and an assembly COMMAND with its literals
(R68). An `Instr` is well formed by its types: its operands have the widths of R63. -/

namespace Sys2Proof

/-! ## Command words -/

/-- One row of spec/opcode_table.json: a word belongs to it when its bits under `mask` are those of `pattern`. -/
structure TableRow where
  mnemonic : Mnemonic
  pattern : CommandWord
  mask : CommandWord
  deriving DecidableEq, Repr

/-- The nine rows of spec/opcode_table.json. -/
def opcodeTable : List TableRow :=
  [ ⟨.adlerInit, 0x0100000000#40, 0xFFFFFFFFFF#40⟩,
    ⟨.adlerSeed, 0x0200000000#40, 0xFF00000000#40⟩,
    ⟨.adlerUpdate0, 0x1000000000#40, 0xFFFFFFFFFF#40⟩,
    ⟨.adlerUpdate1, 0x1100000000#40, 0xFFFFFFFF00#40⟩,
    ⟨.adlerUpdate2, 0x1200000000#40, 0xFFFFFF0000#40⟩,
    ⟨.adlerUpdate3, 0x1300000000#40, 0xFFFF000000#40⟩,
    ⟨.adlerUpdate4, 0x1400000000#40, 0xFF00000000#40⟩,
    ⟨.hdrEncode, 0x2000000000#40, 0xFFFFFFFFFC#40⟩,
    ⟨.hdrDecode, 0x2100000000#40, 0xFFFFFF0000#40⟩ ]

/-- The word has the row's fixed bits. -/
def TableRow.covers (r : TableRow) (cw : CommandWord) : Bool :=
  cw &&& r.mask == r.pattern

/-- Some row of the opcode table covers the word (R67: every word that matches no row is illegal). -/
def wordLegal (cw : CommandWord) : Bool :=
  opcodeTable.any (fun r => r.covers cw)

/-- The reserved-zero bits of ARG for an opcode in the map of R62, from the table of R63; none for an opcode that is unassigned. -/
def reservedZeroBits (op : BitVec 8) : Option Word :=
  if op = 0x01 then some 0xFFFFFFFF
  else if op = 0x02 then some 0
  else if op = 0x10 then some 0xFFFFFFFF
  else if op = 0x11 then some 0xFFFFFF00
  else if op = 0x12 then some 0xFFFF0000
  else if op = 0x13 then some 0xFF000000
  else if op = 0x14 then some 0
  else if op = 0x20 then some 0xFFFFFFFC
  else if op = 0x21 then some 0xFFFF0000
  else none

/-- R65: a word is illegal if its OP is unassigned or it sets a reserved-zero bit. -/
def IllegalWord (op : BitVec 8) (arg : Word) : Prop :=
  match reservedZeroBits op with
  | none => True
  | some mask => arg &&& mask ≠ 0

/-! ## Assembly commands -/

/-- One assembly command as R68 writes it, its operands still plain numbers. -/
structure AsmCommand where
  mnemonic : Mnemonic
  operands : List Nat
  deriving DecidableEq, Repr

/-- The width of each operand of a mnemonic, in assembly order (R63, R68). -/
def operandWidths : Mnemonic → List Nat
  | .adlerInit => []
  | .adlerSeed => [32]
  | .adlerUpdate0 => []
  | .adlerUpdate1 => [8]
  | .adlerUpdate2 => [8, 8]
  | .adlerUpdate3 => [8, 8, 8]
  | .adlerUpdate4 => [8, 8, 8, 8]
  | .hdrEncode => [2]
  | .hdrDecode => [8, 8]

/-- There is one literal for each operand of the mnemonic (R69: HDR_ENCODE with no operand is not a legal spelling). -/
def AsmCommand.operandCountOk (c : AsmCommand) : Bool :=
  c.operands.length == (operandWidths c.mnemonic).length

/-- Every literal fits the width of its operand (R68: one that does not is an assembly error, never a truncation). -/
def AsmCommand.literalsFit (c : AsmCommand) : Bool :=
  (c.operands.zip (operandWidths c.mnemonic)).all (fun p => decide (p.1 < 2 ^ p.2))

/-- A well-formed assembly command: its mnemonic's number of operands, every literal within its width. -/
def AsmCommand.wellFormed (c : AsmCommand) : Bool :=
  c.operandCountOk && c.literalsFit

end Sys2Proof
end

