-- ==== Sys2Proof/Decode.lean ====
section
/-! DEFINITION. The command word's fields, the decoder (total on every 40-bit word, rejecting by name), and the encoder, each written
from the tables of spec/30_encoding.md R60 to R65. -/

namespace Sys2Proof

/-! ## Fields -/

/-- `OP = CW[39:32]` (R60). -/
def CommandWord.op (cw : CommandWord) : BitVec 8 := cw.extractLsb' 32 8

/-- `ARG = CW[31:0]` (R60). -/
def CommandWord.arg (cw : CommandWord) : Word := cw.extractLsb' 0 32

/-- `lane(ARG, k) = ARG[8k+7:8k]` (spec/00_scope.md R12). -/
def lane (arg : Word) (k : Nat) : Byte := arg.extractLsb' (8 * k) 8

/-- `CW = OP ‖ ARG` (R60). -/
def commandWord (op : BitVec 8) (arg : Word) : CommandWord := op ++ arg

/-- The level code: 0 none, 1 fast, 2 balanced, 3 best (spec/42_header_codec.md R130). -/
def Level.code : Level → BitVec 2
  | .none => 0
  | .fast => 1
  | .balanced => 2
  | .best => 3

/-- The level with a given code. -/
def Level.ofCode (c : BitVec 2) : Level :=
  if c = 0 then .none else if c = 1 then .fast else if c = 2 then .balanced else .best

/-! ## Decoding -/

/-- Why a word is no command (R65). -/
inductive DecodeError where
  /-- its OP is in no row of the opcode map (R62) -/
  | unassignedOpcode (op : BitVec 8)
  /-- it sets a reserved-zero bit of ARG (R64) -/
  | reservedBitSet (op : BitVec 8)
  deriving DecidableEq, Repr

/-- The bits `ARG[31:lo]`, which the command with this opcode must hold at 0, are 0 (R64). -/
def requireZero (op : BitVec 8) (arg : Word) (lo : Nat) (i : Instr) : Except DecodeError Instr :=
  if arg >>> lo = 0 then .ok i else .error (.reservedBitSet op)

/-- The operands of each opcode (R62, R63), and IllegalCommand by name for every other word (R65). -/
def decodeFields (op : BitVec 8) (arg : Word) : Except DecodeError Instr :=
  if op = 0x01 then requireZero op arg 0 .adlerInit
  else if op = 0x02 then .ok (.adlerSeed arg)
  else if op = 0x10 then requireZero op arg 0 .adlerUpdate0
  else if op = 0x11 then requireZero op arg 8 (.adlerUpdate1 (lane arg 0))
  else if op = 0x12 then requireZero op arg 16 (.adlerUpdate2 (lane arg 0) (lane arg 1))
  else if op = 0x13 then requireZero op arg 24 (.adlerUpdate3 (lane arg 0) (lane arg 1) (lane arg 2))
  else if op = 0x14 then .ok (.adlerUpdate4 (lane arg 0) (lane arg 1) (lane arg 2) (lane arg 3))
  else if op = 0x20 then requireZero op arg 2 (.hdrEncode (.ofCode (arg.extractLsb' 0 2)))
  else if op = 0x21 then requireZero op arg 16 (.hdrDecode (lane arg 1) (lane arg 0))
  else .error (.unassignedOpcode op)

/-- The command a word spells, or why it spells none (R67: every word is exactly one of the two). -/
def decode (cw : CommandWord) : Except DecodeError Instr :=
  decodeFields cw.op cw.arg

/-! ## Encoding -/

/-- The opcode of a command (R62). -/
def Instr.opcode : Instr → BitVec 8
  | .adlerInit => 0x01
  | .adlerSeed _ => 0x02
  | .adlerUpdate0 => 0x10
  | .adlerUpdate1 _ => 0x11
  | .adlerUpdate2 _ _ => 0x12
  | .adlerUpdate3 _ _ _ => 0x13
  | .adlerUpdate4 _ _ _ _ => 0x14
  | .hdrEncode _ => 0x20
  | .hdrDecode _ _ => 0x21

/-- `x3 ‖ x2 ‖ x1 ‖ x0`: stream bytes in lanes 0, 1, 2, 3 (spec/20_memory.md R42). -/
def packLanes (x0 x1 x2 x3 : Byte) : Word := x3 ++ x2 ++ x1 ++ x0

/-- The operand word of a command, its reserved bits 0 (R63). -/
def Instr.operand : Instr → Word
  | .adlerInit => 0
  | .adlerSeed seed => seed
  | .adlerUpdate0 => 0
  | .adlerUpdate1 b0 => packLanes b0 0 0 0
  | .adlerUpdate2 b0 b1 => packLanes b0 b1 0 0
  | .adlerUpdate3 b0 b1 b2 => packLanes b0 b1 b2 0
  | .adlerUpdate4 b0 b1 b2 b3 => packLanes b0 b1 b2 b3
  | .hdrEncode level => level.code.setWidth 32
  | .hdrDecode cmf flg => packLanes flg cmf 0 0

/-- The word of a command (R60, R62, R63). -/
def encode (i : Instr) : CommandWord := commandWord i.opcode i.operand

/-- The mnemonic as spec/opcode_table.json spells it. -/
def Mnemonic.text : Mnemonic → String
  | .adlerInit => "ADLER_INIT"
  | .adlerSeed => "ADLER_SEED"
  | .adlerUpdate0 => "ADLER_UPDATE0"
  | .adlerUpdate1 => "ADLER_UPDATE1"
  | .adlerUpdate2 => "ADLER_UPDATE2"
  | .adlerUpdate3 => "ADLER_UPDATE3"
  | .adlerUpdate4 => "ADLER_UPDATE4"
  | .hdrEncode => "HDR_ENCODE"
  | .hdrDecode => "HDR_DECODE"

/-- The command's row in spec/opcode_table.json. -/
def Instr.mnemonic : Instr → Mnemonic
  | .adlerInit => .adlerInit
  | .adlerSeed _ => .adlerSeed
  | .adlerUpdate0 => .adlerUpdate0
  | .adlerUpdate1 _ => .adlerUpdate1
  | .adlerUpdate2 _ _ => .adlerUpdate2
  | .adlerUpdate3 _ _ _ => .adlerUpdate3
  | .adlerUpdate4 _ _ _ _ => .adlerUpdate4
  | .hdrEncode _ => .hdrEncode
  | .hdrDecode _ _ => .hdrDecode

/-! ## The host's reading of a table row -/

/-- The low `nbits` bits of `w` as a command word: the bits above `nbits` are 0. A command word is one 40-bit word, so the table's bit
numbering is the word's own (log 11). -/
def tableWord (nbits w : Nat) : CommandWord := BitVec.ofNat 40 (w % 2 ^ nbits)

/-- The instruction the decoder reads from a table row's word; none where it rejects the word, or where the word is wider than the
40 bits of the command port (log 11). -/
def decodeTableWord (nbits w : Nat) : Option Instr :=
  if w % 2 ^ nbits < 2 ^ 40 then (decode (tableWord nbits w)).toOption else none

end Sys2Proof
end

