-- ==== Sys2Proof/Machine/State.lean ====
section
/-! DEFINITION. The machine's state as plain data: the block's registers (spec/10_state.md R28) and what the host drives on the input
ports (R31); the reasons a step can stop; the state after reset (spec/70_reset_and_hazards.md R230). -/

namespace Sys2Proof.Machine

/-- What the host drives on the three input ports of R31 at one step. -/
structure PortSample where
  /-- `cmd_valid`: the host presents a command word. -/
  cmdValid : Bool
  /-- `cmd_word`: the word presented. -/
  cmdWord : CommandWord
  /-- `rst`: reset request. -/
  rst : Bool
  deriving DecidableEq, Repr

/-- The ports while the host drives nothing. -/
def PortSample.idle : PortSample := ⟨false, 0, false⟩

/-- The host presents a command word and no reset. -/
def PortSample.command (cw : CommandWord) : PortSample := ⟨true, cw, false⟩

/-- The host requests a reset and presents no command. -/
def PortSample.reset : PortSample := ⟨false, 0, true⟩

/-- The whole state. The first five fields are the block's complete architected state (R28); `inputs` is the host agent's, held as
data so that one deterministic step can serve every host (log 1). -/
structure State where
  /-- `S1`, the sum of bytes + 1 (R21). -/
  s1 : Word
  /-- `S2`, the sum of the prefix sums of S1 (R21). -/
  s2 : Word
  /-- `HDR_OUT`, the header value the last HDR_ENCODE produced (R24). -/
  hdrOut : HeaderWord
  /-- `HDR_IN`, the header value the last HDR_DECODE received (R25). -/
  hdrIn : HeaderWord
  /-- `STATUS`: INFO in bits 7:4, CODE in bits 3:0 (R26). -/
  status : BitVec 8
  /-- What the host drives on the input ports, this step's sample first. The model's own field. DESIGN CHOICE, safe (log 1). -/
  inputs : List PortSample
  deriving DecidableEq, Repr

/-- The faults of the machine: none. An error is a STATUS value, and "a run never ends in a fault, because the block has none"
(spec/60_exceptions.md R200, R204; spec/70_reset_and_hazards.md R239). No one raises a fault (log 8). -/
inductive Fault where
  deriving DecidableEq, Repr

/-- The reasons the model gives no meaning. No command word and no step is refused. -/
inductive Refusal where
  /-- An arm of exec whose instruction has no meaning yet. No arm raises it. Safe. -/
  | notModelled (mnemonic : String)
  /-- A host sequence read a STATUS code that HDR_DECODE never writes (spec/93_implementation_defined.md I9: a model that sees a
  reserved code must refuse). Raised only by ENV_UNWRAP and ENV_DECOMPRESS, on a path no block behaviour reaches. Safe (log 9). -/
  | unexpectedStatusCode (code : BitVec 4)
  deriving DecidableEq, Repr

/-- The machine right after reset (R230, R28), the host driving nothing (log 1). -/
def State.reset : State where
  s1 := 1
  s2 := 0
  hdrOut := 0x0000
  hdrIn := 0x0000
  status := 0x00
  inputs := []

end Sys2Proof.Machine
end

