-- ==== Sys2Proof/Machine/Flags.lean ====
section
/-! DEFINITION. The STATUS register: the result kinds, their codes, the word a result writes, the field views (spec/10_state.md R26;
spec/60_exceptions.md R201, R202). The block has no other flag (R27). -/

namespace Sys2Proof.Machine

/-- The result kinds of R201, in one enumeration with the kinds only a host sequence raises. -/
inductive StatusKind where
  | ok
  | empty
  | tooShort
  | invalidCompressionMethod
  | invalidWindowSize
  | invalidHeaderChecksum
  | presetDictionaryRequired
  | checksumMismatch
  | deflateError
  | illegalCommand
  deriving DecidableEq, Repr

/-- `code(E)`: the 4-bit code of a kind (R201). -/
def StatusKind.code : StatusKind → BitVec 4
  | .ok => 0x0
  | .empty => 0x1
  | .tooShort => 0x2
  | .invalidCompressionMethod => 0x3
  | .invalidWindowSize => 0x4
  | .invalidHeaderChecksum => 0x5
  | .presetDictionaryRequired => 0x6
  | .checksumMismatch => 0x7
  | .deflateError => 0x8
  | .illegalCommand => 0xF

/-- `kind(c)`: the kind with code `c`; none for the reserved codes 0x9 to 0xE (R201). -/
def StatusKind.ofCode (c : BitVec 4) : Option StatusKind :=
  if c = 0x0 then some .ok
  else if c = 0x1 then some .empty
  else if c = 0x2 then some .tooShort
  else if c = 0x3 then some .invalidCompressionMethod
  else if c = 0x4 then some .invalidWindowSize
  else if c = 0x5 then some .invalidHeaderChecksum
  else if c = 0x6 then some .presetDictionaryRequired
  else if c = 0x7 then some .checksumMismatch
  else if c = 0x8 then some .deflateError
  else if c = 0xF then some .illegalCommand
  else none

/-- `info ‖ code(E)`: the STATUS word of a result (spec/00_scope.md R11). -/
def statusWord (info : BitVec 4) (kind : StatusKind) : BitVec 8 := info ++ kind.code

/-- `STATUS[3:0]` (R26). -/
def State.statusCode (s : State) : BitVec 4 := s.status.extractLsb' 0 4

/-- `STATUS[7:4]` (R26). -/
def State.statusInfo (s : State) : BitVec 4 := s.status.extractLsb' 4 4

end Sys2Proof.Machine
end

