-- ==== Sys2Proof/Machine/Operands.lean ====
section
/-! DEFINITION. Byte-order helpers and field views of the values commands take in and put out (spec/00_scope.md R12; spec/20_memory.md
R41; spec/30_encoding.md R72, R73; spec/44_envelope_sequences.md R163). -/

namespace Sys2Proof.Machine

/-- `BE16(a, b) = (a << 8) | b` (R12): the header value of CMF and FLG. -/
def be16 (a b : Byte) : HeaderWord := (a.setWidth 16 <<< 8) ||| b.setWidth 16

/-- `BE32(a, b, c, d)`, the first byte most significant (R12, R169). -/
def be32 (a b c d : Byte) : Word :=
  (a.setWidth 32 <<< 24) ||| (b.setWidth 32 <<< 16) ||| (c.setWidth 32 <<< 8) ||| d.setWidth 32

/-- A header value as two stream bytes, CMF then FLG (R163). -/
def headerBytes (h : HeaderWord) : Bytes := [h.extractLsb' 8 8, h.extractLsb' 0 8]

/-- `VALUE` as the four trailer bytes, high byte first (R41, R163). -/
def trailerBytes (v : Word) : Bytes :=
  [v.extractLsb' 24 8, v.extractLsb' 16 8, v.extractLsb' 8 8, v.extractLsb' 0 8]

/-- `CM = CMF[3:0]` (R72). -/
def cmfMethod (cmf : Byte) : BitVec 4 := (cmf &&& 0x0F).setWidth 4

/-- `CINFO = CMF[7:4]` (R72). -/
def cmfWindow (cmf : Byte) : BitVec 4 := ((cmf >>> 4) &&& 0x0F).setWidth 4

/-- `FDICT = FLG[5]` (R73). -/
def flgDict (flg : Byte) : BitVec 1 := ((flg >>> 5) &&& 0x01).setWidth 1

/-- Field view `CM` of a header register: bits 11:8 (spec/10_state.md R24, R25). -/
def headerCM (h : HeaderWord) : BitVec 4 := h.extractLsb' 8 4

/-- Field view `CINFO` of a header register: bits 15:12. -/
def headerCINFO (h : HeaderWord) : BitVec 4 := h.extractLsb' 12 4

/-- Field view `FCHECK` of a header register: bits 4:0. -/
def headerFCHECK (h : HeaderWord) : BitVec 5 := h.extractLsb' 0 5

/-- Field view `FDICT` of a header register: bit 5. -/
def headerFDICT (h : HeaderWord) : BitVec 1 := h.extractLsb' 5 1

/-- Field view `FLEVEL` of a header register: bits 7:6. -/
def headerFLEVEL (h : HeaderWord) : BitVec 2 := h.extractLsb' 6 2

end Sys2Proof.Machine
end

