-- ==== Sys2Proof/Machine/Ops.lean ====
section
/-! DEFINITION. The named operations the commands are made of: writing the registers, ending a command with or without an error (the
shared `raise` of spec/00_scope.md R11), the byte step and the reduction of the checksum engine, the check digit of the header codec,
the reset operation, and the outputs the host reads. -/

namespace Sys2Proof.Machine

/-! ## Ending a command -/

/-- A command that reaches its end without `raise` performs `STATUS <- 0x00` (R11). -/
def State.complete (s : State) : State := { s with status := 0x00 }

/-- `raise E(info)`: `STATUS <- info ‖ code(E)`; every write made before it is kept, and nothing else happens: no trap, no vector, no
saved state (R11; spec/60_exceptions.md R204). -/
def State.raise (kind : StatusKind) (info : BitVec 4) (s : State) : State :=
  { s with status := statusWord info kind }

/-- IllegalCommand: `STATUS <- 0x0F` and nothing else (spec/60_exceptions.md R203). -/
def State.illegalCommand (s : State) : State := s.raise .illegalCommand 0

/-! ## The checksum engine -/

/-- `S1 <- t1`, `S2 <- t2`, each a natural that fits the register (R10; spec/10_state.md R22). -/
def State.setSums (t1 t2 : Nat) (s : State) : State :=
  { s with s1 := BitVec.ofNat 32 t1, s2 := BitVec.ofNat 32 t2 }

/-- The byte step on unbounded naturals: `step(t1, t2, b) = (t1 + b, t2 + t1 + b)` (spec/40_adler32.md R103). -/
def byteStep (t : Nat × Nat) (b : Byte) : Nat × Nat :=
  (t.1 + b.toNat, t.2 + t.1 + b.toNat)

/-- The byte step over a sequence of bytes in stream order (R104). -/
def absorbSums (t : Nat × Nat) (bytes : Bytes) : Nat × Nat :=
  bytes.foldl byteStep t

/-- ADLER_UPDATEn's whole effect: absorb the bytes, reduce both sums once at the end, STATUS OK (R104). -/
def State.absorb (bytes : Bytes) (s : State) : State :=
  let t := absorbSums (s.s1.toNat, s.s2.toNat) bytes
  (s.setSums (t.1 % Config.modAdler) (t.2 % Config.modAdler)).complete

/-! ## The header codec -/

/-- `HDR_OUT <- h`. -/
def State.setHdrOut (h : HeaderWord) (s : State) : State := { s with hdrOut := h }

/-- `HDR_IN <- h`. -/
def State.setHdrIn (h : HeaderWord) (s : State) : State := { s with hdrIn := h }

/-- The encoder's CMF constant (spec/42_header_codec.md R131). -/
def encoderCmf : Nat := 0x78

/-- The check digit in closed form: `(31 - ((cmf << 8 | f0) mod 31)) mod 31` (R132). -/
def checkDigit (cmf f0 : Nat) : Nat :=
  (Config.modHdr - ((cmf <<< 8) ||| f0) % Config.modHdr) % Config.modHdr

/-- The header value HDR_ENCODE produces: `(cmf << 8) | f0 | check` with `f0 = level << 6` (R130). -/
def encodedHeader (level : Level) : HeaderWord :=
  let f0 := level.code.toNat <<< 6
  BitVec.ofNat 16 ((encoderCmf <<< 8) ||| f0 ||| checkDigit encoderCmf f0)

/-- The checks of HDR_DECODE in the source's order; the first that fails decides the status (R135 to R139). -/
def State.validateHeader (cmf flg : Byte) (s : State) : State :=
  if cmfMethod cmf ≠ 8 then s.raise .invalidCompressionMethod (cmfMethod cmf)
  else if 7 < (cmfWindow cmf).toNat then s.raise .invalidWindowSize (cmfWindow cmf)
  else if (be16 cmf flg).toNat % Config.modHdr ≠ 0 then s.raise .invalidHeaderChecksum 0
  else if flgDict flg ≠ 0 then s.raise .presetDictionaryRequired 0
  else s.complete

/-! ## Reset -/

/-- The reset operation (spec/70_reset_and_hazards.md R230): every register at its reset value. What the host drives next is the
host's and stays. -/
def State.resetRegisters (s : State) : State :=
  { s with s1 := 1, s2 := 0, hdrOut := 0x0000, hdrIn := 0x0000, status := 0x00 }

/-! ## Ports -/

/-- `VALUE = (S2[15:0] << 16) | S1[15:0]`, a view with no storage (spec/10_state.md R23). -/
def State.value (s : State) : Word :=
  ((s.s2.extractLsb' 0 16).setWidth 32 <<< 16) ||| (s.s1.extractLsb' 0 16).setWidth 32

/-- What the host drives now; nothing where its schedule is at its end (log 1). -/
def State.port (s : State) : PortSample := s.inputs.headD .idle

/-- `cmd_ready`: 0 while `rst` is asserted (spec/70_reset_and_hazards.md R231), else 1, since the block "is always ready for the next
command between commands" (spec/60_exceptions.md R216). DEDUCED, safe (log 2). -/
def State.cmdReady (s : State) : Bool := !s.port.rst

/-- The output ports of R31. -/
structure OutputPorts where
  cmdReady : Bool
  value : Word
  hdrOut : HeaderWord
  hdrIn : HeaderWord
  status : BitVec 8
  s1 : BitVec 16
  s2 : BitVec 16
  deriving DecidableEq, Repr

/-- What the host reads between commands: a function of the state, so a read changes nothing (spec/20_memory.md R44, R46). -/
def State.outputs (s : State) : OutputPorts where
  cmdReady := s.cmdReady
  value := s.value
  hdrOut := s.hdrOut
  hdrIn := s.hdrIn
  status := s.status
  s1 := s.s1.extractLsb' 0 16
  s2 := s.s2.extractLsb' 0 16

end Sys2Proof.Machine
end

