-- ==== Sys2Proof/Machine/Adler.lean ====
section
/-! DEFINITION. The meanings of the checksum engine's commands (spec/40_adler32.md), the checksum of a byte sequence in closed form
(R105, R107), and the engine with another reduction schedule in 32-bit arithmetic (R110). -/

namespace Sys2Proof.Machine

/-- ADLER_INIT (R101): `S1 <- 1`, `S2 <- 0`, OK. -/
def execAdlerInit (s : State) : Host.Outcome State Fault Refusal :=
  .next (s.setSums 1 0).complete

/-- ADLER_SEED (R102): the halves of the seed as given, NOT reduced, OK (the spec's choice D8, log 10). -/
def execAdlerSeed (seed : Word) (s : State) : Host.Outcome State Fault Refusal :=
  .next (s.setSums (seed.extractLsb' 0 16).toNat (seed.extractLsb' 16 16).toNat).complete

/-- ADLER_UPDATE0 (R104): absorbs nothing and still reduces (the spec's choice D7, log 10). -/
def execAdlerUpdate0 (s : State) : Host.Outcome State Fault Refusal :=
  .next (s.absorb [])

/-- ADLER_UPDATE1 (R104). -/
def execAdlerUpdate1 (b0 : Byte) (s : State) : Host.Outcome State Fault Refusal :=
  .next (s.absorb [b0])

/-- ADLER_UPDATE2 (R104). -/
def execAdlerUpdate2 (b0 b1 : Byte) (s : State) : Host.Outcome State Fault Refusal :=
  .next (s.absorb [b0, b1])

/-- ADLER_UPDATE3 (R104). -/
def execAdlerUpdate3 (b0 b1 b2 : Byte) (s : State) : Host.Outcome State Fault Refusal :=
  .next (s.absorb [b0, b1, b2])

/-- ADLER_UPDATE4 (R104). -/
def execAdlerUpdate4 (b0 b1 b2 b3 : Byte) (s : State) : Host.Outcome State Fault Refusal :=
  .next (s.absorb [b0, b1, b2, b3])

/-! ## The checksum in closed form -/

/-- `sum_k b_k` (R105). -/
def byteSum (x : Bytes) : Nat := (x.map fun b => b.toNat).sum

/-- `sum_k (n-k) * b_k` for k in 0..n-1, n the number of bytes: byte k is counted once for each of the n-k prefix sums that contain it
(R105). -/
def weightedSum (x : Bytes) : Nat :=
  ((List.range x.length).map fun k => (x.length - k) * (x.getD k 0).toNat).sum

/-- `A(x)`, the Adler-32 of x (R107): `(s2 << 16) | s1`. -/
def adler32 (x : Bytes) : Word :=
  let s1 := (1 + byteSum x) % Config.modAdler
  let s2 := (x.length + weightedSum x) % Config.modAdler
  BitVec.ofNat 32 ((s2 <<< 16) ||| s1)

/-! ## Another reduction schedule (R110) -/

/-- Both 32-bit sums replaced by their residues. -/
def reduce32 (t : Word × Word) : Word × Word :=
  (t.1 % BitVec.ofNat 32 Config.modAdler, t.2 % BitVec.ofNat 32 Config.modAdler)

/-- The byte step in wrapping 32-bit arithmetic: `s1 += b; s2 += s1`. -/
def byteStep32 (t : Word × Word) (b : Byte) : Word × Word :=
  (t.1 + b.setWidth 32, t.2 + (t.1 + b.setWidth 32))

/-- An update that reduces both sums after each of the given runs of bytes, in 32-bit arithmetic that wraps: the source's periodic
schedule, its last reduction "at the end of the call". The runs are the schedule's choice. -/
def scheduledUpdate (runs : List Bytes) (t : Word × Word) : Word × Word :=
  runs.foldl (fun u run => reduce32 (run.foldl byteStep32 u)) t

end Sys2Proof.Machine
end

