-- ==== Sys2Proof/Machine/Header.lean ====
section
/-! DEFINITION. The meanings of the header codec's commands (spec/42_header_codec.md). -/

namespace Sys2Proof.Machine

/-- HDR_ENCODE (R130): `HDR_OUT` is the header for the level hint, OK. -/
def execHdrEncode (level : Level) (s : State) : Host.Outcome State Fault Refusal :=
  .next (s.setHdrOut (encodedHeader level)).complete

/-- HDR_DECODE (R135): `HDR_IN` is latched first, whatever follows; then the checks in the source's order. -/
def execHdrDecode (cmf flg : Byte) (s : State) : Host.Outcome State Fault Refusal :=
  .next ((s.setHdrIn (be16 cmf flg)).validateHeader cmf flg)

end Sys2Proof.Machine
end

