-- ==== Sys2Proof/Machine/Dispatch.lean ====
section
/-! DEFINITION. One arm per command of spec/30_encoding.md R62, each one direct call of its meaning. -/

namespace Sys2Proof.Machine

/-- What a command does to the state. -/
def exec (i : Instr) (s : State) : Host.Outcome State Fault Refusal :=
  match i with
  | .adlerInit => Sys2Proof.Machine.execAdlerInit s
  | .adlerSeed seed => Sys2Proof.Machine.execAdlerSeed seed s
  | .adlerUpdate0 => Sys2Proof.Machine.execAdlerUpdate0 s
  | .adlerUpdate1 b0 => Sys2Proof.Machine.execAdlerUpdate1 b0 s
  | .adlerUpdate2 b0 b1 => Sys2Proof.Machine.execAdlerUpdate2 b0 b1 s
  | .adlerUpdate3 b0 b1 b2 => Sys2Proof.Machine.execAdlerUpdate3 b0 b1 b2 s
  | .adlerUpdate4 b0 b1 b2 b3 => Sys2Proof.Machine.execAdlerUpdate4 b0 b1 b2 b3 s
  | .hdrEncode level => Sys2Proof.Machine.execHdrEncode level s
  | .hdrDecode cmf flg => Sys2Proof.Machine.execHdrDecode cmf flg s

end Sys2Proof.Machine
end

