-- ==== Sys2Proof/Machine/Handshake.lean ====
section
/-! DEFINITION. The command port: what one step does with what the host drives (spec/10_state.md R31; spec/70_reset_and_hazards.md R230,
R231, R234), and what the host does to issue one command. -/

namespace Sys2Proof.Machine

/-- A word accepted on the command port: its command, or IllegalCommand where it spells none (spec/30_encoding.md R65, R67). -/
def acceptWord (cw : CommandWord) (s : State) : Host.Outcome State Fault Refusal :=
  match decode cw with
  | .ok i => exec i s
  | .error _ => .next s.illegalCommand

/-- One sample of the input ports. `rst` resets the block and no command is accepted (R231); a word presented without `rst` is accepted,
since the block is ready (log 2); otherwise nothing happens. -/
def servePorts (p : PortSample) (s : State) : Host.Outcome State Fault Refusal :=
  if p.rst then .next s.resetRegisters
  else if p.cmdValid then acceptWord p.cmdWord s
  else .next s

/-- Take the host's present sample, if it has one, and serve it; with an empty schedule the host drives nothing and nothing happens
(log 1, log 3). -/
def serveNext (s : State) : Host.Outcome State Fault Refusal :=
  match s.inputs with
  | [] => .next s
  | p :: rest => servePorts p { s with inputs := rest }

/-- The host presents one command word now; whatever else it was going to drive comes after. -/
def State.present (cw : CommandWord) (s : State) : State :=
  { s with inputs := .command cw :: s.inputs }

end Sys2Proof.Machine
end

