-- ==== Sys2Proof/Machine/Assembler.lean ====
section
/-! DEFINITION. The assembler syntax of spec/30_encoding.md R68: from a line of text to a command. The spelling of numbers (decimal,
0x hexadecimal, 0b binary, one quoted character) is what the spec's own text uses (log 13). -/

namespace Sys2Proof.Machine

/-- Why a line is no command. -/
inductive AsmError where
  /-- the first word is no mnemonic of the table -/
  | unknownMnemonic
  /-- an operand is missing or too many -/
  | operandCount
  /-- a literal does not fit its width: an error, never a truncation (R68) -/
  | literalTooWide
  /-- an operand that is neither a number nor, for HDR_ENCODE, a level name -/
  | badOperand
  /-- characters that do not form words and commas in the form `mnemonic operand, operand` -/
  | badSyntax
  deriving DecidableEq, Repr

/-! ## From an assembly command to a command -/

/-- The command an assembly command names; an ill-formed one (`AsmCommand.wellFormed`) is an error by name. Bytes are written in stream
order (R68). -/
def assemble (c : AsmCommand) : Except AsmError Instr :=
  if c.operandCountOk = false then .error .operandCount
  else if c.literalsFit = false then .error .literalTooWide
  else match c.mnemonic, c.operands with
    | .adlerInit, [] => .ok .adlerInit
    | .adlerSeed, [seed] => .ok (.adlerSeed (BitVec.ofNat 32 seed))
    | .adlerUpdate0, [] => .ok .adlerUpdate0
    | .adlerUpdate1, [b0] => .ok (.adlerUpdate1 (BitVec.ofNat 8 b0))
    | .adlerUpdate2, [b0, b1] => .ok (.adlerUpdate2 (BitVec.ofNat 8 b0) (BitVec.ofNat 8 b1))
    | .adlerUpdate3, [b0, b1, b2] => .ok (.adlerUpdate3 (BitVec.ofNat 8 b0) (BitVec.ofNat 8 b1) (BitVec.ofNat 8 b2))
    | .adlerUpdate4, [b0, b1, b2, b3] =>
      .ok (.adlerUpdate4 (BitVec.ofNat 8 b0) (BitVec.ofNat 8 b1) (BitVec.ofNat 8 b2) (BitVec.ofNat 8 b3))
    | .hdrEncode, [level] => .ok (.hdrEncode (.ofCode (BitVec.ofNat 2 level)))
    | .hdrDecode, [cmf, flg] => .ok (.hdrDecode (BitVec.ofNat 8 cmf) (BitVec.ofNat 8 flg))
    | _, _ => .error .operandCount

/-- The operands of a command as numbers, in assembly order. -/
def operandNumbers : Instr → List Nat
  | .adlerInit => []
  | .adlerSeed seed => [seed.toNat]
  | .adlerUpdate0 => []
  | .adlerUpdate1 b0 => [b0.toNat]
  | .adlerUpdate2 b0 b1 => [b0.toNat, b1.toNat]
  | .adlerUpdate3 b0 b1 b2 => [b0.toNat, b1.toNat, b2.toNat]
  | .adlerUpdate4 b0 b1 b2 b3 => [b0.toNat, b1.toNat, b2.toNat, b3.toNat]
  | .hdrEncode level => [level.code.toNat]
  | .hdrDecode cmf flg => [cmf.toNat, flg.toNat]

/-- The assembly command that spells a command. -/
def disassemble (i : Instr) : AsmCommand := ⟨i.mnemonic, operandNumbers i⟩

/-- All mnemonics. -/
def allMnemonics : List Mnemonic := opcodeTable.map (·.mnemonic)

/-- The mnemonic a word spells, if any. -/
def mnemonicOfText (text : List Char) : Option Mnemonic :=
  allMnemonics.find? fun m => m.text.toList == text

/-! ## From text to an assembly command -/

/-- The pieces of a line: words of letters, commas, quoted characters. -/
inductive AsmToken where
  | word (text : List Char)
  | comma
  | quoted (c : Char)
  deriving DecidableEq, Repr

/-- A word that has ended, if there is one. -/
def flushWord (cur : List Char) (rest : List AsmToken) : List AsmToken :=
  if cur = [] then rest else .word cur :: rest

/-- Cut a line into tokens; `;` starts a comment (R68). `cur` is the word read so far. -/
def lexLine (cur : List Char) : List Char → List AsmToken
  | [] => flushWord cur []
  | '\'' :: c :: '\'' :: rest => flushWord cur (.quoted c :: lexLine [] rest)
  | c :: rest =>
    if c = ';' then flushWord cur []
    else if c = ',' then flushWord cur (.comma :: lexLine [] rest)
    else if c = ' ' ∨ c = '\t' then flushWord cur (lexLine [] rest)
    else lexLine (cur ++ [c]) rest

/-- The value of a digit in a base up to 16. -/
def digitValue (base : Nat) (c : Char) : Option Nat :=
  let v :=
    if '0' ≤ c ∧ c ≤ '9' then some (c.toNat - '0'.toNat)
    else if 'a' ≤ c ∧ c ≤ 'f' then some (c.toNat - 'a'.toNat + 10)
    else if 'A' ≤ c ∧ c ≤ 'F' then some (c.toNat - 'A'.toNat + 10)
    else none
  v.bind fun d => if d < base then some d else none

/-- The number a row of digits spells, after the number already read. -/
def digitsValue (base acc : Nat) : List Char → Option Nat
  | [] => some acc
  | c :: rest => (digitValue base c).bind fun d => digitsValue base (acc * base + d) rest

/-- An unsigned number: decimal, `0x` or `0b` (R9). -/
def numberValue : List Char → Option Nat
  | [] => none
  | ['0', 'x'] => none
  | ['0', 'b'] => none
  | '0' :: 'x' :: digits => digitsValue 16 0 digits
  | '0' :: 'b' :: digits => digitsValue 2 0 digits
  | digits => digitsValue 10 0 digits

/-- The names a level operand may have (R68). -/
def levelName (text : List Char) : Option Nat :=
  if text = ['n', 'o', 'n', 'e'] then some 0
  else if text = ['f', 'a', 's', 't'] then some 1
  else if text = ['b', 'a', 'l', 'a', 'n', 'c', 'e', 'd'] then some 2
  else if text = ['b', 'e', 's', 't'] then some 3
  else none

/-- One operand as a number. Level names belong to HDR_ENCODE only. -/
def operandValue (mnemonic : Mnemonic) : AsmToken → Option Nat
  | .word text =>
    match numberValue text with
    | some n => some n
    | none => if mnemonic = .hdrEncode then levelName text else none
  | .quoted c => if c.toNat < 256 then some c.toNat else none
  | .comma => none

/-- `operand, operand, …`. -/
def operandList (mnemonic : Mnemonic) : List AsmToken → Except AsmError (List Nat)
  | [] => .ok []
  | [t] =>
    match operandValue mnemonic t with
    | some n => .ok [n]
    | none => .error .badOperand
  | t :: .comma :: t' :: rest =>
    match operandValue mnemonic t, operandList mnemonic (t' :: rest) with
    | some n, .ok ns => .ok (n :: ns)
    | none, _ => .error .badOperand
    | _, .error e => .error e
  | _ => .error .badSyntax

/-- One line: a command, or nothing where it is blank or only a comment (R68). -/
def assembleLine (line : List Char) : Except AsmError (Option Instr) :=
  match lexLine [] line with
  | [] => .ok none
  | .word w :: operands =>
    match mnemonicOfText w with
    | none => .error .unknownMnemonic
    | some m =>
      match operandList m operands with
      | .ok ns =>
        match assemble ⟨m, ns⟩ with
        | .ok i => .ok (some i)
        | .error e => .error e
      | .error e => .error e
  | _ => .error .badSyntax

end Sys2Proof.Machine
end

