-- ==== Sys2Proof/Machine/Sequences.lean ====
section
/-! DEFINITION. The host-side sequences of spec/44_envelope_sequences.md (the pseudo-instructions of spec/30_encoding.md R69). Each
issues block commands through `step` and works on host-owned byte sequences; the DEFLATE codec is an argument (spec/00_scope.md R8). A
sequence is run by one host with the port to itself: what else is scheduled comes after it (log 12). -/

namespace Sys2Proof.Machine

/-! ## Issuing commands -/

/-- `issue C`: present the command's word and wait for it to complete, which is one step (R13). -/
def issue (i : Instr) (s : State) : Host.Outcome State Fault Refusal :=
  step (s.present (encode i))

/-- Issue commands one after another. -/
def issueAll : List Instr → State → Host.Outcome State Fault Refusal
  | [], s => .next s
  | i :: rest, s =>
    match issue i s with
    | .next t => issueAll rest t
    | .fault f => .fault f
    | .refused r => .refused r

/-! ## Checksum sequences -/

/-- `ADLER_UPDATE|c| c`: the update command that carries the bytes of a chunk, lanes filled from lane 0 in stream order. A chunk has at
most four bytes; of a longer list this is the command for its first four. -/
def updateCommand : Bytes → Instr
  | [] => .adlerUpdate0
  | [b0] => .adlerUpdate1 b0
  | [b0, b1] => .adlerUpdate2 b0 b1
  | [b0, b1, b2] => .adlerUpdate3 b0 b1 b2
  | b0 :: b1 :: b2 :: b3 :: _ => .adlerUpdate4 b0 b1 b2 b3

/-- `x[4j .. min(4j+4, |x|))` for j = 0 .. ceil(|x|/4) - 1 (R161). -/
def chunksOf4 : Bytes → List Bytes
  | [] => []
  | [b0] => [[b0]]
  | [b0, b1] => [[b0, b1]]
  | [b0, b1, b2] => [[b0, b1, b2]]
  | b0 :: b1 :: b2 :: b3 :: rest => [b0, b1, b2, b3] :: chunksOf4 rest

/-- The commands `UPDATE_BYTES x` issues (R161): one ADLER_UPDATE0 for no bytes, else one command a chunk. -/
def updateBytesCommands (x : Bytes) : List Instr :=
  if x.length = 0 then [.adlerUpdate0] else (chunksOf4 x).map updateCommand

/-- `UPDATE_BYTES x` (R161). -/
def updateBytes (x : Bytes) (s : State) : Host.Outcome State Fault Refusal :=
  issueAll (updateBytesCommands x) s

/-- `CHECKSUM x` (R162): the result is `VALUE` of the state it leaves. -/
def checksum (x : Bytes) (s : State) : Host.Outcome State Fault Refusal :=
  issueAll (.adlerInit :: updateBytesCommands x) s

/-! ## Errors and results of a host operation -/

/-- The error kinds a host operation can end with, each with the payload of R176. -/
inductive HostError (ε : Type) where
  | empty
  | tooShort
  | invalidCompressionMethod (cm : BitVec 4)
  | invalidWindowSize (cinfo : BitVec 4)
  | invalidHeaderChecksum
  | presetDictionaryRequired
  | deflateError (inner : ε)
  | checksumMismatch (expected actual : Word)
  deriving DecidableEq, Repr

/-- The kind of an error in the enumeration of spec/60_exceptions.md R201. -/
def HostError.kind {ε : Type} : HostError ε → StatusKind
  | .empty => .empty
  | .tooShort => .tooShort
  | .invalidCompressionMethod _ => .invalidCompressionMethod
  | .invalidWindowSize _ => .invalidWindowSize
  | .invalidHeaderChecksum => .invalidHeaderChecksum
  | .presetDictionaryRequired => .presetDictionaryRequired
  | .deflateError _ => .deflateError
  | .checksumMismatch _ _ => .checksumMismatch

/-- `kind(STATUS.CODE)(STATUS.INFO)` for the four header kinds HDR_DECODE reports (R166); none for any other code. -/
def headerError {ε : Type} (code info : BitVec 4) : Option (HostError ε) :=
  match StatusKind.ofCode code with
  | some .invalidCompressionMethod => some (.invalidCompressionMethod info)
  | some .invalidWindowSize => some (.invalidWindowSize info)
  | some .invalidHeaderChecksum => some .invalidHeaderChecksum
  | some .presetDictionaryRequired => some .presetDictionaryRequired
  | _ => none

/-- How a host operation ends: with a result, with an error kind (`fail E`), or stopped where the model gives no meaning; and the
block's state there. -/
inductive SeqResult (ε α : Type) where
  | done (result : α) (s : State)
  | failed (error : HostError ε) (s : State)
  | stopped (r : Refusal)
  deriving DecidableEq, Repr

/-- Go on from the state a command left. The block has no fault. -/
def afterIssue {ε α : Type} (o : Host.Outcome State Fault Refusal) (k : State → SeqResult ε α) : SeqResult ε α :=
  match o with
  | .next t => k t
  | .fault f => nomatch f
  | .refused r => .stopped r

/-- Go on from a result; an error ends the operation at once (R176). -/
def SeqResult.andThen {ε α β : Type} (o : SeqResult ε α) (k : α → State → SeqResult ε β) : SeqResult ε β :=
  match o with
  | .done a t => k a t
  | .failed e t => .failed e t
  | .stopped r => .stopped r

/-! ## Envelope composer -/

/-- `ENV_WRAP d, level, x` (R165): header, the DEFLATE bytes given, and the trailer over `x`. -/
def envWrap {ε : Type} (d : Bytes) (level : Level) (x : Bytes) (s : State) : SeqResult ε Bytes :=
  afterIssue (issue (.hdrEncode level) s) fun t =>
    let out := headerBytes t.hdrOut
    let out := out ++ d
    afterIssue (checksum x t) fun u =>
      .done (out ++ trailerBytes u.value) u

/-- `ENV_COMPRESS x, level` (R164). -/
def envCompress {ε : Type} (codec : Config.DeflateCodec ε) (x : Bytes) (level : Level) (s : State) : SeqResult ε Bytes :=
  afterIssue (issue (.hdrEncode level) s) fun t =>
    let out := headerBytes t.hdrOut
    let out := out ++ codec.compress x level
    afterIssue (checksum x t) fun u =>
      .done (out ++ trailerBytes u.value) u

/-- `ENV_COMPRESS x`: the level defaults to balanced (R174). -/
def envCompressDefault {ε : Type} (codec : Config.DeflateCodec ε) (x : Bytes) (s : State) : SeqResult ε Bytes :=
  envCompress codec x .balanced s

/-! ## Envelope parser -/

/-- `x[i]`, which a sequence reads only for i < |x|. -/
def byteAt (x : Bytes) (i : Nat) : Byte := x.getD i 0

/-- `x[i .. j)` (R13). -/
def sliceBytes (x : Bytes) (i j : Nat) : Bytes := (x.take j).drop i

/-- `ENV_UNWRAP stream` (R166, the 6-byte floor of R168). -/
def envUnwrap {ε : Type} (stream : Bytes) (s : State) : SeqResult ε Bytes :=
  if stream.length = 0 then .failed .empty s
  else if stream.length < 6 then .failed .tooShort s
  else afterIssue (issue (.hdrDecode (byteAt stream 0) (byteAt stream 1)) s) fun t =>
    if t.statusCode ≠ 0 then
      match headerError t.statusCode t.statusInfo with
      | some e => .failed e t
      | none => .stopped (.unexpectedStatusCode t.statusCode)
    else .done (sliceBytes stream 2 (stream.length - 4)) t

/-- The trailer of a stream, `BE32` of its last four bytes in stream order (R169). -/
def expectedTrailer (stream : Bytes) : Word :=
  let n := stream.length
  be32 (byteAt stream (n - 4)) (byteAt stream (n - 3)) (byteAt stream (n - 2)) (byteAt stream (n - 1))

/-- `ENV_DECOMPRESS stream` (R167). -/
def envDecompress {ε : Type} (codec : Config.DeflateCodec ε) (stream : Bytes) (s : State) : SeqResult ε Bytes :=
  (envUnwrap stream s).andThen fun p t =>
    match codec.decompress p with
    | .error e => .failed (.deflateError e) t
    | .ok r =>
      afterIssue (checksum r t) fun u =>
        if u.value ≠ expectedTrailer stream then .failed (.checksumMismatch (expectedTrailer stream) u.value) u
        else .done r u

/-! ## Using the sequences -/

/-- A host sequence that appends its output to a buffer: the buffer's bytes, then the fresh result (R171). -/
def SeqResult.appendTo {ε : Type} (buffer : Bytes) (o : SeqResult ε Bytes) : SeqResult ε Bytes :=
  match o with
  | .done out t => .done (buffer ++ out) t
  | .failed e t => .failed e t
  | .stopped r => .stopped r

/-- A host in the middle of its own checksum saves `VALUE` before a sequence and issues `ADLER_SEED` with it after (R178; spec/10_state.md
R32), whether the sequence ended with a result or an error. -/
def savingEngine {ε α : Type} (sequence : State → SeqResult ε α) (s : State) : SeqResult ε α :=
  match sequence s with
  | .done a t => afterIssue (issue (.adlerSeed s.value) t) fun u => .done a u
  | .failed e t => afterIssue (issue (.adlerSeed s.value) t) fun u => .failed e u
  | .stopped r => .stopped r

end Sys2Proof.Machine
end

