-- ==== Sys2Proof/Safety.lean ====
section
/-! DEFINITION. What counts as a legal state and a safe run, in the terms the statements use: the block's invariant, which commands
belong to which unit, which words a run accepts, and the schedules several hosts can produce. -/

namespace Sys2Proof.Machine

/-! ## The block's invariant -/

/-- `S1 < 2^16` and `S2 < 2^16`, as at every command boundary (spec/10_state.md R22). -/
def State.Bounded (s : State) : Prop := s.s1.toNat < 2 ^ 16 ∧ s.s2.toNat < 2 ^ 16

/-- `S1 <= 65520` and `S2 <= 65520`, as after ADLER_INIT and every ADLER_UPDATEn (R22). -/
def State.Reduced (s : State) : Prop := s.s1.toNat ≤ 65520 ∧ s.s2.toNat ≤ 65520

/-- The INFO values the block writes with each kind: `cm`, which is not 8; `cinfo`, which is in 8..15; 0 otherwise; none with a kind
that only a host raises (spec/60_exceptions.md R201, R202; spec/42_header_codec.md R136, R137). -/
def infoLegal (kind : StatusKind) (info : BitVec 4) : Bool :=
  match kind with
  | .ok => info == 0
  | .invalidCompressionMethod => info != 8
  | .invalidWindowSize => decide (8 ≤ info.toNat)
  | .invalidHeaderChecksum => info == 0
  | .presetDictionaryRequired => info == 0
  | .illegalCommand => info == 0
  | .empty => false
  | .tooShort => false
  | .checksumMismatch => false
  | .deflateError => false

/-- A STATUS value the block can write (R201, R202). -/
def statusLegal (code info : BitVec 4) : Bool :=
  match StatusKind.ofCode code with
  | some kind => infoLegal kind info
  | none => false

/-- The values of HDR_OUT: its reset value and the four encoder outputs (spec/42_header_codec.md R133). -/
def hdrOutLegal (h : HeaderWord) : Prop :=
  h = 0x0000 ∨ h = 0x7801 ∨ h = 0x785E ∨ h = 0x789C ∨ h = 0x78DA

/-- The block's invariant: bounded sums, a STATUS the block can write, an HDR_OUT the encoder can produce. -/
def State.Inv (s : State) : Prop :=
  s.Bounded ∧ statusLegal s.statusCode s.statusInfo = true ∧ hdrOutLegal s.hdrOut

/-! ## Kinds of commands -/

/-- ADLER_UPDATE0 to ADLER_UPDATE4. -/
def isUpdate : Instr → Bool
  | .adlerInit => false
  | .adlerSeed _ => false
  | .adlerUpdate0 => true
  | .adlerUpdate1 _ => true
  | .adlerUpdate2 _ _ => true
  | .adlerUpdate3 _ _ _ => true
  | .adlerUpdate4 _ _ _ _ => true
  | .hdrEncode _ => false
  | .hdrDecode _ _ => false

/-- The commands of the checksum engine (spec/40_adler32.md). -/
def isEngine : Instr → Bool
  | .adlerInit => true
  | .adlerSeed _ => true
  | .adlerUpdate0 => true
  | .adlerUpdate1 _ => true
  | .adlerUpdate2 _ _ => true
  | .adlerUpdate3 _ _ _ => true
  | .adlerUpdate4 _ _ _ _ => true
  | .hdrEncode _ => false
  | .hdrDecode _ _ => false

/-- The commands whose immediate repetition changes nothing: all but ADLER_UPDATEn with n >= 1 (spec/20_memory.md R46). -/
def isIdempotent : Instr → Bool
  | .adlerInit => true
  | .adlerSeed _ => true
  | .adlerUpdate0 => true
  | .adlerUpdate1 _ => false
  | .adlerUpdate2 _ _ => false
  | .adlerUpdate3 _ _ _ => false
  | .adlerUpdate4 _ _ _ _ => false
  | .hdrEncode _ => true
  | .hdrDecode _ _ => true

/-! ## Runs -/

/-- `n` steps of the machine behind the host's interface: a run of `n` port samples (R239). -/
def runSteps (n : Nat) (s : State) : Host.Outcome State Fault Refusal := Sys2Proof.core.run n s

/-- The word a step accepts from this sample, if any: `cmd_valid` and `cmd_ready` both 1 (spec/10_state.md R31). -/
def PortSample.accepted (p : PortSample) : Option CommandWord :=
  if p.cmdValid && !p.rst then some p.cmdWord else none

/-- The word the next step accepts, if any. -/
def State.accepted (s : State) : Option CommandWord := s.port.accepted

/-- Every word a schedule gets accepted is legal: the premise of a claim about a run (spec/70_reset_and_hazards.md R239). -/
def LegalSchedule (inputs : List PortSample) : Prop :=
  ∀ p ∈ inputs, ∀ cw, p.accepted = some cw → wordLegal cw = true

/-- The samples by which a host issues commands one after another. -/
def commandSamples (commands : List Instr) : List PortSample :=
  commands.map fun i => .command (encode i)

/-- `zs` is one of the orders in which two hosts' lists can be accepted: each host's own order is kept, nothing else is promised (R236). -/
inductive Interleaving {α : Type} : List α → List α → List α → Prop where
  | nil : Interleaving [] [] []
  | first {x : α} {xs ys zs : List α} : Interleaving xs ys zs → Interleaving (x :: xs) ys (x :: zs)
  | second {y : α} {xs ys zs : List α} : Interleaving xs ys zs → Interleaving xs (y :: ys) (y :: zs)

/-- STATUS.CODE after HDR_DECODE of a header, which depends on nothing else (spec/42_header_codec.md R135). -/
def decodeCode (cmf flg : Byte) : BitVec 4 := (State.reset.validateHeader cmf flg).statusCode

/-- How many of the 65536 header values end HDR_DECODE with a given STATUS.CODE. -/
def countHeaders (code : BitVec 4) : Nat :=
  ((List.range 256).map fun cmf =>
    (List.range 256).countP fun flg => decodeCode (BitVec.ofNat 8 cmf) (BitVec.ofNat 8 flg) == code).sum

end Sys2Proof.Machine
end

