-- ==== Sys2Proof/Certificates/Slice0/Obligations.lean ====
section
/-! DEFINITION. The statements for the provers. Each docstring names the rule of spec/ it formalises. -/

open Sys2Proof Sys2Proof.Machine

/-! ## Reset, ports and the run -/

/-- R230 (70_reset_and_hazards.md): a step with `rst` asserted leaves exactly the reset registers, and `VALUE` is then 1, as after
ADLER_INIT. The schedule that is left is the host's. -/
def Obligations.ResetStepSetsEveryRegister : Prop :=
  (∀ (s : State) (p : PortSample) (rest : List PortSample), s.inputs = p :: rest → p.rst = true →
    ∃ t, step s = .next t ∧ t = ⟨1, 0, 0x0000, 0x0000, 0x00, rest⟩ ∧ t.value = 0x00000001 ∧
      ∃ u, exec .adlerInit s = .next u ∧ u.s1 = t.s1 ∧ u.s2 = t.s2) ∧
  State.reset.s1 = 1 ∧ State.reset.s2 = 0 ∧ State.reset.hdrOut = 0x0000 ∧ State.reset.hdrIn = 0x0000 ∧
  State.reset.status = 0x00 ∧ State.reset.value = 0x00000001

/-- R231: while `rst` is asserted `cmd_ready` is 0 and the command presented has no effect; a command accepted before the reset has
completed when the reset is served. -/
def Obligations.ResetAcceptsNoCommand : Prop :=
  (∀ (s : State) (v : Bool) (cw : CommandWord) (rest : List PortSample), s.inputs = ⟨v, cw, true⟩ :: rest →
    s.cmdReady = false ∧ step s = step { s with inputs := PortSample.reset :: rest }) ∧
  (∀ (s : State) (cw : CommandWord) (p : PortSample) (rest : List PortSample),
    s.inputs = .command cw :: p :: rest → p.rst = true →
    ∃ t, step s = .next t ∧ acceptWord cw { s with inputs := p :: rest } = .next t ∧
      step t = .next ⟨1, 0, 0x0000, 0x0000, 0x00, rest⟩)

/-- The machine's step is its decoder and its meanings: a presented word that decodes to `i` is performed as `exec i`, an illegal word
writes STATUS alone, and with nothing presented nothing happens; each step moves past one port sample. The last clause (an empty
schedule) is the model's choice, log 1. -/
def Obligations.StepRunsTheDecodedCommand : Prop :=
  (∀ (s : State) (cw : CommandWord) (i : Instr) (rest : List PortSample),
    s.inputs = .command cw :: rest → decode cw = .ok i → step s = exec i { s with inputs := rest }) ∧
  (∀ (s : State) (cw : CommandWord) (e : DecodeError) (rest : List PortSample),
    s.inputs = .command cw :: rest → decode cw = .error e →
    step s = .next { s with inputs := rest, status := 0x0F }) ∧
  (∀ s : State, s.inputs = [] → step s = .next s)

/-- R234: a command is performed exactly once, when `cmd_valid` and `cmd_ready` are both 1; a host that drops `cmd_valid` before
acceptance has issued nothing. That the block is ready at once whenever `rst` is 0 is the model's reading of R216 (log 2); the
last clause also uses R230 and R231 as the model has them (log 4). -/
def Obligations.AcceptedCommandIsPerformedOnce : Prop :=
  (∀ (s : State) (cw : CommandWord) (rest : List PortSample), s.inputs = ⟨true, cw, false⟩ :: rest →
    s.cmdReady = true ∧ step s = acceptWord cw { s with inputs := rest }) ∧
  (∀ (s : State) (cw : CommandWord) (rest : List PortSample), s.inputs = ⟨false, cw, false⟩ :: rest →
    step s = .next { s with inputs := rest }) ∧
  (∀ (s : State) (cw cw' : CommandWord) (rest : List PortSample),
    s.inputs = ⟨true, cw, true⟩ :: ⟨false, cw', false⟩ :: rest →
    runSteps 2 s = .next ⟨1, 0, 0x0000, 0x0000, 0x00, rest⟩)

/-- R237 (weak fairness) as the model has it: a command the host goes on presenting is accepted once `rst` is no longer asserted, from
the reset registers. That the wait is no longer than the reset is the model's choice, log 2. -/
def Obligations.HeldCommandIsAcceptedAfterReset : Prop :=
  ∀ (k : Nat) (s : State) (cw : CommandWord) (rest : List PortSample),
    s.inputs = List.replicate (k + 1) ⟨true, cw, true⟩ ++ .command cw :: rest →
    runSteps (k + 2) s = acceptWord cw ⟨1, 0, 0x0000, 0x0000, 0x00, rest⟩

/-- R44, R49: outputs between commands show the effect of every earlier command and of no later one. After the samples `xs`
the registers are the same whatever the host drives afterwards (`ys`), and going on is going on from there. -/
def Obligations.OutputsSeeEarlierCommandsOnly : Prop :=
  ∀ (xs : List PortSample) (s : State), ∃ t : State,
    ∀ (ys : List PortSample) (n : Nat),
      runSteps xs.length { s with inputs := xs ++ ys } = .next { t with inputs := ys } ∧
      runSteps (xs.length + n) { s with inputs := xs ++ ys } = runSteps n { t with inputs := ys }

/-- R239: a run never ends in a fault; an accepted illegal word is a completed command with STATUS = 0x0F; and a run whose words are all
legal never shows STATUS = 0x0F. -/
def Obligations.RunsEndWithoutFault : Prop :=
  (∀ (n : Nat) (s : State), ∃ t, runSteps n s = .next t ∧ t.inputs = s.inputs.drop n) ∧
  (∀ (s : State) (cw : CommandWord), s.accepted = some cw → wordLegal cw = false →
    ∃ t, step s = .next t ∧ t.status = 0x0F) ∧
  (∀ (n : Nat) (s t : State), LegalSchedule s.inputs → s.status ≠ 0x0F → runSteps n s = .next t →
    t.status ≠ 0x0F)

/-! ## State -/

/-- The block's invariant (R22, R201, R202, R133) holds after reset. -/
def Obligations.BlockInvariantAtReset : Prop := State.reset.Inv

/-- The block's invariant is kept by every step, from every state that has it: S1 and S2 below 2^16, STATUS a value the block can write,
HDR_OUT its reset value or an encoder output. -/
def Obligations.StepKeepsBlockInvariant : Prop :=
  ∀ s t : State, s.Inv → step s = .next t → t.Inv

/-- R22: bounds at every command boundary; at most 65520 after ADLER_INIT and every ADLER_UPDATEn; only ADLER_SEED can leave a value in
65521..65535, and the next ADLER_UPDATEn reduces it. -/
def Obligations.SumsStayBounded : Prop :=
  State.reset.Bounded ∧
  (∀ s t : State, s.Bounded → step s = .next t →
    t.Bounded ∧ t.s1.extractLsb' 16 16 = 0 ∧ t.s2.extractLsb' 16 16 = 0) ∧
  (∀ (i : Instr) (s : State), i = .adlerInit ∨ isUpdate i = true → ∃ t, exec i s = .next t ∧ t.Reduced) ∧
  (∀ (i : Instr) (s t : State), exec i s = .next t → s.Reduced →
    t.Reduced ∨ ∃ seed, i = .adlerSeed seed ∧ (65521 ≤ seed.toNat % 2 ^ 16 ∨ 65521 ≤ seed.toNat / 2 ^ 16))

/-- R23: VALUE is S2[15:0] in the high half and S1[15:0] in the low half; the masking changes no value of a bounded state. -/
def Obligations.ValueIsBothSums : Prop :=
  ∀ s : State, s.value.toNat = (s.s2.toNat % 2 ^ 16) * 2 ^ 16 + s.s1.toNat % 2 ^ 16 ∧
    s.outputs.value = s.value ∧
    (s.Bounded → s.value.toNat = s.s2.toNat * 2 ^ 16 + s.s1.toNat)

/-- R32: `ADLER_SEED VALUE` restores exactly the engine state that VALUE was read from, unreduced halves too, whatever the block did in
between. -/
def Obligations.SaveAndRestoreIsExact : Prop :=
  ∀ s t : State, s.Bounded → ∃ u, exec (.adlerSeed s.value) t = .next u ∧ u.s1 = s.s1 ∧ u.s2 = s.s2 ∧ u.value = s.value

/-- The "written by" column of R28: over a step without reset, a register changes only by the command that writes it. -/
def Obligations.OnlyItsCommandsWriteARegister : Prop :=
  ∀ s t : State, step s = .next t → s.port.rst = false →
    (t.s1 ≠ s.s1 ∨ t.s2 ≠ s.s2 → ∃ cw i, s.accepted = some cw ∧ decode cw = .ok i ∧ isEngine i = true) ∧
    (t.hdrOut ≠ s.hdrOut → ∃ cw level, s.accepted = some cw ∧ decode cw = .ok (.hdrEncode level)) ∧
    (t.hdrIn ≠ s.hdrIn → ∃ cw cmf flg, s.accepted = some cw ∧ decode cw = .ok (.hdrDecode cmf flg)) ∧
    (t.status ≠ s.status → ∃ cw, s.accepted = some cw)

/-- R27, R26: no command reads STATUS, so what a command leaves, its own STATUS too, does not depend on the earlier STATUS. -/
def Obligations.NoCommandReadsStatus : Prop :=
  (∀ (i : Instr) (s : State) (status : BitVec 8), exec i { s with status := status } = exec i s) ∧
  (∀ (cw : CommandWord) (s : State) (status : BitVec 8), acceptWord cw { s with status := status } = acceptWord cw s)

/-- R24: HDR_OUT after HDR_ENCODE has CMF 0x78, CM 8, CINFO 7, FDICT 0, the level in FLEVEL and its check digit in FCHECK; only
HDR_ENCODE writes it; its field views are the rule's bits. -/
def Obligations.HdrOutHoldsTheEncodedFields : Prop :=
  (∀ (level : Level) (s : State), ∃ t, exec (.hdrEncode level) s = .next t ∧
    t.hdrOut.extractLsb' 8 8 = 0x78#8 ∧ headerCM t.hdrOut = 8 ∧ headerCINFO t.hdrOut = 7 ∧ headerFDICT t.hdrOut = 0 ∧
    headerFLEVEL t.hdrOut = level.code ∧ (headerFCHECK t.hdrOut).toNat = checkDigit 0x78 (level.code.toNat * 64)) ∧
  (∀ (i : Instr) (s t : State), exec i s = .next t → t.hdrOut ≠ s.hdrOut → ∃ level, i = .hdrEncode level) ∧
  (∀ h : HeaderWord, headerCM h = h.extractLsb' 8 4 ∧ headerCINFO h = h.extractLsb' 12 4 ∧ headerFCHECK h = h.extractLsb' 0 5 ∧
    headerFDICT h = h.extractLsb' 5 1 ∧ headerFLEVEL h = h.extractLsb' 6 2)

/-- R25: HDR_IN holds the header value HDR_DECODE received, whether or not decoding succeeds; its views are the source's field
extractions; only HDR_DECODE writes it. -/
def Obligations.HdrInHoldsTheReceivedFields : Prop :=
  (∀ (cmf flg : Byte) (s : State), ∃ t, exec (.hdrDecode cmf flg) s = .next t ∧
    t.hdrIn.extractLsb' 8 8 = cmf ∧ t.hdrIn.extractLsb' 0 8 = flg ∧
    (headerCM t.hdrIn).toNat = cmf.toNat % 16 ∧ (headerCINFO t.hdrIn).toNat = cmf.toNat / 16 ∧
    (headerFCHECK t.hdrIn).toNat = flg.toNat % 32 ∧ (headerFDICT t.hdrIn).toNat = flg.toNat / 32 % 2 ∧
    (headerFLEVEL t.hdrIn).toNat = flg.toNat / 64) ∧
  (∀ (i : Instr) (s t : State), exec i s = .next t → t.hdrIn ≠ s.hdrIn → ∃ cmf flg, i = .hdrDecode cmf flg)

/-- The frame of the engine's commands: the codec's registers and the host's schedule are unchanged. S1, S2 and STATUS are what these
commands write. -/
def Obligations.EngineCommandsLeaveTheCodec : Prop :=
  ∀ (i : Instr) (s t : State), isEngine i = true → exec i s = .next t →
    t.hdrOut = s.hdrOut ∧ t.hdrIn = s.hdrIn ∧ t.inputs = s.inputs

/-- The frame of the codec's commands: the engine's registers, the other header register and the host's schedule are unchanged. HDR_OUT
(HDR_ENCODE), HDR_IN (HDR_DECODE) and STATUS are what these commands write. -/
def Obligations.CodecCommandsLeaveTheEngine : Prop :=
  (∀ (level : Level) (s t : State), exec (.hdrEncode level) s = .next t →
    t.s1 = s.s1 ∧ t.s2 = s.s2 ∧ t.hdrIn = s.hdrIn ∧ t.inputs = s.inputs) ∧
  (∀ (cmf flg : Byte) (s t : State), exec (.hdrDecode cmf flg) s = .next t →
    t.s1 = s.s1 ∧ t.s2 = s.s2 ∧ t.hdrOut = s.hdrOut ∧ t.inputs = s.inputs)

/-- "The codec shares no state with the checksum engine except STATUS": over any run, what the engine's registers become does not depend
on the codec's registers, nor the codec's on the engine's. -/
def Obligations.EngineAndCodecAreIndependent : Prop :=
  ∀ (n : Nat) (s t s' t' : State), s.inputs = t.inputs →
    runSteps n s = .next s' → runSteps n t = .next t' →
    (s.s1 = t.s1 → s.s2 = t.s2 → s'.s1 = t'.s1 ∧ s'.s2 = t'.s2) ∧
    (s.hdrOut = t.hdrOut → s.hdrIn = t.hdrIn → s'.hdrOut = t'.hdrOut ∧ s'.hdrIn = t'.hdrIn)

/-- The repetition clause of R46: repeating at once gives the same state for ADLER_INIT, ADLER_SEED, ADLER_UPDATE0, HDR_ENCODE,
HDR_DECODE and any illegal word; it does not for ADLER_UPDATEn with n >= 1. -/
def Obligations.RepeatingACommandAtOnce : Prop :=
  (∀ (i : Instr) (s : State), isIdempotent i = true → ∃ t, exec i s = .next t ∧ exec i t = .next t) ∧
  (∀ (cw : CommandWord) (s : State), wordLegal cw = false → ∃ t, acceptWord cw s = .next t ∧ acceptWord cw t = .next t) ∧
  (∀ c : Bytes, 1 ≤ c.length → c.length ≤ 4 → ∃ s t u,
    exec (updateCommand c) s = .next t ∧ exec (updateCommand c) t = .next u ∧ u ≠ t)

/-! ## Encoding -/

/-- Decoding the word of a command gives the command, for every command with every operand value. -/
def Obligations.DecodeOfEncode : Prop :=
  ∀ i : Instr, decode (encode i) = .ok i

/-- A word that decodes is the word of its command: no bit of a legal word is ignored. -/
def Obligations.EncodeOfDecode : Prop :=
  ∀ (cw : CommandWord) (i : Instr), decode cw = .ok i → encode i = cw

/-- R67: every word is exactly one of the nine commands or illegal; the rows of the opcode table do not overlap, and a word that
matches none of them is illegal. -/
def Obligations.EveryWordIsOneCommandOrIllegal : Prop :=
  ∀ cw : CommandWord,
    (∃ i r, decode cw = .ok i ∧ opcodeTable.filter (fun r => r.covers cw) = [r] ∧ r.mnemonic = i.mnemonic) ∨
    (∃ e, decode cw = .error e ∧ opcodeTable.filter (fun r => r.covers cw) = [])

/-- R65, R203, R64: a word is illegal exactly if its OP is unassigned or it sets a reserved-zero bit; an illegal word sets
STATUS = 0x0F and nothing else. The reserved-zero bits are those of the table of R63. -/
def Obligations.IllegalWordsWriteOnlyStatus : Prop :=
  ∀ (op : BitVec 8) (arg : Word),
    (IllegalWord op arg ↔ ∃ e, decode (op ++ arg) = .error e) ∧
    (reservedZeroBits op = none ↔ op.toNat = 0x00 ∨ (0x03 ≤ op.toNat ∧ op.toNat ≤ 0x0F) ∨
      (0x15 ≤ op.toNat ∧ op.toNat ≤ 0x1F) ∨ 0x22 ≤ op.toNat) ∧
    ([0x01#8, 0x02, 0x10, 0x11, 0x12, 0x13, 0x14, 0x20, 0x21].map reservedZeroBits =
      [some 0xFFFFFFFF, some 0, some 0xFFFFFFFF, some 0xFFFFFF00, some 0xFFFF0000, some 0xFF000000, some 0,
        some 0xFFFFFFFC, some 0xFFFF0000]) ∧
    (∀ s : State, IllegalWord op arg → acceptWord (op ++ arg) s = .next { s with status := 0x0F })

/-- Words written out from the encoding tables (R62, R63) and the words of 95_test_vectors.md decode to what they stand for. -/
def Obligations.WordsOfTheSpecDecode : Prop :=
  decode 0x0100000000 = .ok .adlerInit ∧
  decode 0x0212345678 = .ok (.adlerSeed 0x12345678) ∧
  decode 0x1000000000 = .ok .adlerUpdate0 ∧
  decode 0x1100000061 = .ok (.adlerUpdate1 0x61) ∧
  decode 0x1200000201 = .ok (.adlerUpdate2 0x01 0x02) ∧
  decode 0x1300636261 = .ok (.adlerUpdate3 0x61 0x62 0x63) ∧
  decode 0x14696B6957 = .ok (.adlerUpdate4 0x57 0x69 0x6B 0x69) ∧
  decode 0x2000000002 = .ok (.hdrEncode .balanced) ∧
  decode 0x210000789C = .ok (.hdrDecode 0x78 0x9C) ∧
  decode 0x0000000000 = .error (.unassignedOpcode 0x00) ∧
  decode 0x1100000157 = .error (.reservedBitSet 0x11) ∧
  decode 0x210001789C = .error (.reservedBitSet 0x21)

/-- R42: lane 0 is `ARG[7:0]`, the first of the command's bytes in stream order and the first summed; a command carrying stream bytes
x0, x1, x2, x3 has `ARG = x3 ‖ x2 ‖ x1 ‖ x0`. -/
def Obligations.LanesAreInStreamOrder : Prop :=
  (∀ x0 x1 x2 x3 : Byte,
    decode (0x11#8 ++ (0#8 ++ 0#8 ++ 0#8 ++ x0)) = .ok (.adlerUpdate1 x0) ∧
    decode (0x12#8 ++ (0#8 ++ 0#8 ++ x1 ++ x0)) = .ok (.adlerUpdate2 x0 x1) ∧
    decode (0x13#8 ++ (0#8 ++ x2 ++ x1 ++ x0)) = .ok (.adlerUpdate3 x0 x1 x2) ∧
    decode (0x14#8 ++ (x3 ++ x2 ++ x1 ++ x0)) = .ok (.adlerUpdate4 x0 x1 x2 x3)) ∧
  (∀ (arg : Word) (k : Nat), k < 4 → lane arg k = arg.extractLsb' (8 * k) 8) ∧
  (∀ (x0 x1 x2 x3 : Byte) (s : State),
    exec (.adlerUpdate1 x0) s = .next (s.absorb [x0]) ∧
    exec (.adlerUpdate2 x0 x1) s = .next (s.absorb [x0, x1]) ∧
    exec (.adlerUpdate3 x0 x1 x2) s = .next (s.absorb [x0, x1, x2]) ∧
    exec (.adlerUpdate4 x0 x1 x2 x3) s = .next (s.absorb [x0, x1, x2, x3])) ∧
  (∀ (sums : Nat × Nat) (b : Byte) (c : Bytes), absorbSums sums (b :: c) = absorbSums (byteStep sums b) c)

/-- The literal rule of R68: an assembly command assembles exactly if its mnemonic, its number of operands and its literals' widths are
right; what it assembles to spells the same literals, so a literal is never truncated; every command can be spelled. -/
def Obligations.AssemblerNeverTruncates : Prop :=
  (∀ c : AsmCommand, c.wellFormed = false → ∃ e, assemble c = .error e) ∧
  (∀ c : AsmCommand, c.wellFormed = true → ∃ i, assemble c = .ok i ∧ disassemble i = c) ∧
  (∀ i : Instr, assemble (disassemble i) = .ok i)

/-- R41: the header value is CMF, FLG big-endian; trailer byte k is `VALUE[31-8k:24-8k]`; reading the trailer back big-endian gives
VALUE; VALUE has S2 in its high half and S1 in its low half. -/
def Obligations.WireFormatIsBigEndian : Prop :=
  (∀ cmf flg : Byte, (be16 cmf flg).toNat = cmf.toNat * 256 + flg.toNat ∧ headerBytes (be16 cmf flg) = [cmf, flg]) ∧
  (∀ (v : Word) (k : Nat), k < 4 → (trailerBytes v)[k]? = some (v.extractLsb' (24 - 8 * k) 8)) ∧
  (∀ v : Word, be32 (v.extractLsb' 24 8) (v.extractLsb' 16 8) (v.extractLsb' 8 8) (v.extractLsb' 0 8) = v) ∧
  (∀ s : State, s.value.extractLsb' 16 16 = s.s2.extractLsb' 0 16 ∧ s.value.extractLsb' 0 16 = s.s1.extractLsb' 0 16)

/-! ## The checksum engine -/

/-- R101: ADLER_INIT from any state, its one word, every other word with its opcode, and VALUE after it. -/
def Obligations.AdlerInitStartsAChecksum : Prop :=
  (∀ s : State, ∃ t, exec .adlerInit s = .next t ∧ t = { s with s1 := 1, s2 := 0, status := 0x00 } ∧
    t.value = 0x00000001) ∧
  decode 0x0100000000 = .ok .adlerInit ∧
  (∀ (arg : Word) (s : State), arg ≠ 0 → acceptWord (0x01#8 ++ arg) s = .next { s with status := 0x0F }) ∧
  adler32 [] = 1

/-- R102: ADLER_SEED splits the seed, stores the halves unreduced, and VALUE returns the seed; every ARG is legal; from seed 0,
ADLER_UPDATE0 leaves VALUE 0; the next ADLER_UPDATEn reduces. -/
def Obligations.AdlerSeedStoresTheHalves : Prop :=
  (∀ (seed : Word) (s : State), ∃ t, exec (.adlerSeed seed) s = .next t ∧
    t = { s with s1 := seed &&& 0xFFFF, s2 := (seed >>> 16) &&& 0xFFFF, status := 0x00 } ∧ t.value = seed ∧
    ∀ i, isUpdate i = true → ∃ u, exec i t = .next u ∧ u.Reduced) ∧
  (∀ seed : Word, decode (0x02#8 ++ seed) = .ok (.adlerSeed seed)) ∧
  (∀ s : State, ∃ t u, exec (.adlerSeed 0) s = .next t ∧ exec .adlerUpdate0 t = .next u ∧ u.value = 0) ∧
  (∀ s : State, s.Bounded → ∃ u, exec (.adlerSeed s.value) s = .next u ∧ u.s1 = s.s1 ∧ u.s2 = s.s2)

/-- R103, R104: the sums after ADLER_UPDATE0 to ADLER_UPDATE4, written out byte step by byte step and reduced once at the end; the lanes
of the words; the illegal words with these opcodes; the corner cases. -/
def Obligations.AdlerUpdateAbsorbsItsBytes : Prop :=
  (∀ (s : State) (b0 b1 b2 b3 : Byte),
    let a0 := s.s1.toNat
    let c0 := s.s2.toNat
    let a1 := a0 + b0.toNat
    let c1 := c0 + a0 + b0.toNat
    let a2 := a1 + b1.toNat
    let c2 := c1 + a1 + b1.toNat
    let a3 := a2 + b2.toNat
    let c3 := c2 + a2 + b2.toNat
    let a4 := a3 + b3.toNat
    let c4 := c3 + a3 + b3.toNat
    let after := fun a c : Nat =>
      { s with s1 := BitVec.ofNat 32 (a % 65521), s2 := BitVec.ofNat 32 (c % 65521), status := 0x00 }
    exec .adlerUpdate0 s = .next (after a0 c0) ∧
    exec (.adlerUpdate1 b0) s = .next (after a1 c1) ∧
    exec (.adlerUpdate2 b0 b1) s = .next (after a2 c2) ∧
    exec (.adlerUpdate3 b0 b1 b2) s = .next (after a3 c3) ∧
    exec (.adlerUpdate4 b0 b1 b2 b3) s = .next (after a4 c4)) ∧
  (∀ arg : Word,
    (arg = 0 → decode (0x10#8 ++ arg) = .ok .adlerUpdate0) ∧
    (arg >>> 8 = 0 → decode (0x11#8 ++ arg) = .ok (.adlerUpdate1 (lane arg 0))) ∧
    (arg >>> 16 = 0 → decode (0x12#8 ++ arg) = .ok (.adlerUpdate2 (lane arg 0) (lane arg 1))) ∧
    (arg >>> 24 = 0 → decode (0x13#8 ++ arg) = .ok (.adlerUpdate3 (lane arg 0) (lane arg 1) (lane arg 2))) ∧
    decode (0x14#8 ++ arg) = .ok (.adlerUpdate4 (lane arg 0) (lane arg 1) (lane arg 2) (lane arg 3))) ∧
  (∀ (op : BitVec 8) (arg : Word) (s : State),
    (op = 0x10 ∧ arg ≠ 0) ∨ (op = 0x11 ∧ arg >>> 8 ≠ 0) ∨ (op = 0x12 ∧ arg >>> 16 ≠ 0) ∨ (op = 0x13 ∧ arg >>> 24 ≠ 0) ∨
      op = 0x15 ∨ op = 0x16 ∨ op = 0x17 →
    acceptWord (op ++ arg) s = .next { s with status := 0x0F }) ∧
  (∀ s : State, s.Reduced → exec .adlerUpdate0 s = .next { s with status := 0x00 }) ∧
  (∀ s : State, s.s1 = 0xFFFF → s.s2 = 0xFFFF → ∃ t, exec .adlerUpdate0 s = .next t ∧ t.s1 = 14 ∧ t.s2 = 14) ∧
  (∀ s : State, s.s1 = 65520 → ∃ t, exec (.adlerUpdate1 0x01) s = .next t ∧ t.s1 = 0) ∧
  (∃ s : State, ∃ t u, exec (.adlerUpdate2 0x01 0x02) s = .next t ∧ exec (.adlerUpdate2 0x02 0x01) s = .next u ∧
    t.value ≠ u.value)

/-- R105: the closed form of one ADLER_UPDATEn, for a chunk of n bytes, n in 0..4. -/
def Obligations.AdlerUpdateClosedForm : Prop :=
  ∀ (c : Bytes) (s : State), c.length ≤ 4 → ∃ t, exec (updateCommand c) s = .next t ∧
    t.s1.toNat = (s.s1.toNat + ((List.range c.length).map fun k => (c.getD k 0).toNat).sum) % 65521 ∧
    t.s2.toNat = (s.s2.toNat + c.length * s.s1.toNat +
      ((List.range c.length).map fun k => (c.length - k) * (c.getD k 0).toNat).sum) % 65521

/-- R106: chunking is invisible. Accepting the update commands of any chunks of 0 to 4 bytes, at least one of them, from any
state, leaves the sums of the concatenated bytes; so any two such splits of the same bytes leave the same state. The second
clause issues the commands as a host sequence with the port to itself, which is the model's choice (log 12). -/
def Obligations.ChunkingIsInvisible : Prop :=
  (∀ (cs : List Bytes) (s : State) (rest : List PortSample), cs ≠ [] → (∀ c ∈ cs, c.length ≤ 4) →
    s.inputs = commandSamples (cs.map updateCommand) ++ rest →
    ∃ t, runSteps cs.length s = .next t ∧
      t.s1.toNat = (s.s1.toNat + byteSum cs.flatten) % 65521 ∧
      t.s2.toNat = (s.s2.toNat + cs.flatten.length * s.s1.toNat + weightedSum cs.flatten) % 65521 ∧
      t.hdrOut = s.hdrOut ∧ t.hdrIn = s.hdrIn ∧ t.status = 0x00 ∧ t.inputs = rest) ∧
  (∀ (cs ds : List Bytes) (s : State), cs ≠ [] → ds ≠ [] → (∀ c ∈ cs, c.length ≤ 4) → (∀ d ∈ ds, d.length ≤ 4) →
    cs.flatten = ds.flatten → ∃ t, issueAll (cs.map updateCommand) s = .next t ∧ issueAll (ds.map updateCommand) s = .next t)

/-- R107, R162: CHECKSUM x, from whatever state, ends with VALUE = A(x); A of no bytes is 1. The codec's registers and the
host's later inputs are as before. That the sequence has the port to itself and leaves the later inputs as they are is the
model's choice (log 12). -/
def Obligations.ChecksumIsAdler32 : Prop :=
  (∀ (x : Bytes) (s : State), ∃ t, checksum x s = .next t ∧ t.value = adler32 x ∧
    t.value.toNat = ((x.length + ((List.range x.length).map fun i => (x.length - i) * (x.getD i 0).toNat).sum) % 65521) * 65536
      + (1 + (x.map fun b => b.toNat).sum) % 65521 ∧
    t.hdrOut = s.hdrOut ∧ t.hdrIn = s.hdrIn ∧ t.status = 0x00 ∧ t.inputs = s.inputs) ∧
  adler32 [] = 1

/-- R161: UPDATE_BYTES x leaves the sums of the source's `update(x)`, its end-of-call reduction included; any other split of x
into commands of 1 to 4 bytes leaves the same state. That the sequence has the port to itself is the model's choice (log 12). -/
def Obligations.UpdateBytesIsTheSourceUpdate : Prop :=
  (∀ (x : Bytes) (s : State), updateBytes x s = .next (s.absorb x)) ∧
  (∀ (x : Bytes) (cs : List Bytes) (s : State), x ≠ [] → (∀ c ∈ cs, 1 ≤ c.length ∧ c.length ≤ 4) → cs.flatten = x →
    issueAll (cs.map updateCommand) s = updateBytes x s) ∧
  updateBytesCommands [] = [.adlerUpdate0]

/-- R108: the engine raises no exception. A legal engine command ends OK, and a word with an engine opcode can end only OK or
IllegalCommand. -/
def Obligations.EngineRaisesNoError : Prop :=
  (∀ (i : Instr) (s : State), isEngine i = true → ∃ t, exec i s = .next t ∧ t.status = 0x00) ∧
  (∀ (cw : CommandWord) (s : State), cw.op ∈ [0x01#8, 0x02, 0x10, 0x11, 0x12, 0x13, 0x14] →
    ∃ t, acceptWord cw s = .next t ∧ (t.status = 0x00 ∨ t.status = 0x0F))

/-- R109: inside one ADLER_UPDATEn from a bounded state the sums stay below the rule's bounds, so 32-bit wrapping arithmetic is exact. -/
def Obligations.NoOverflowInsideACommand : Prop :=
  ∀ (s : State) (c : Bytes), s.Bounded → c.length ≤ 4 →
    (absorbSums (s.s1.toNat, s.s2.toNat) c).1 ≤ 66555 ∧ (absorbSums (s.s1.toNat, s.s2.toNat) c).2 ≤ 330225 ∧
    (c.foldl byteStep32 (s.s1, s.s2)).1.toNat = (absorbSums (s.s1.toNat, s.s2.toNat) c).1 ∧
    (c.foldl byteStep32 (s.s1, s.s2)).2.toNat = (absorbSums (s.s1.toNat, s.s2.toNat) c).2

/-- R110: the reduction schedule is not observable. Wrapping 32-bit arithmetic that reduces after runs of at most 5552 bytes each, from
any bounded state, gives the sums of the model's update of all the bytes; 5552 is the largest run the binding bound allows. -/
def Obligations.ReductionScheduleIsUnobservable : Prop :=
  (∀ (runs : List Bytes) (s : State), runs ≠ [] → (∀ r ∈ runs, r.length ≤ 5552) → s.Bounded →
    scheduledUpdate runs (s.s1, s.s2) = ((s.absorb runs.flatten).s1, (s.absorb runs.flatten).s2)) ∧
  (∀ n : Nat, 255 * (n * (n + 1)) / 2 + (n + 1) * 65520 ≤ 2 ^ 32 - 1 ↔ n ≤ 5552)

/-- R236: commands of two hosts are accepted in some interleaving; a checksum built from both hosts' ADLER_UPDATEn commands is the
checksum of the interleaved byte stream, whatever was accepted before the ADLER_INIT, and no interleaving of any words stops the
block. -/
def Obligations.SharedPortChecksumsTheInterleaving : Prop :=
  (∀ (c1 c2 cs : List Bytes) (before : List CommandWord) (s : State) (rest : List PortSample),
    (∀ c ∈ c1, c.length ≤ 4) → (∀ c ∈ c2, c.length ≤ 4) → Interleaving c1 c2 cs →
    s.inputs = before.map .command ++ commandSamples (.adlerInit :: cs.map updateCommand) ++ rest →
    ∃ t, runSteps (before.length + 1 + cs.length) s = .next t ∧ t.value = adler32 cs.flatten ∧ t.inputs = rest) ∧
  (∀ (w1 w2 ws : List CommandWord) (s : State), Interleaving w1 w2 ws → s.inputs = ws.map .command →
    ∃ t, runSteps (w1.length + w2.length) s = .next t ∧ t.inputs = [])

/-! ## The header codec -/

/-- R130, R131: HDR_ENCODE's result by the rule's formula, its words, and the words with a reserved bit set. -/
def Obligations.HdrEncodeProducesTheHeader : Prop :=
  (∀ (level : Level) (s : State), exec (.hdrEncode level) s = .next { s with
    hdrOut := BitVec.ofNat 16 (0x78 * 256 + level.code.toNat * 64 +
      (31 - (0x78 * 256 + level.code.toNat * 64) % 31) % 31),
    status := 0x00 }) ∧
  decode 0x2000000000 = .ok (.hdrEncode .none) ∧ decode 0x2000000001 = .ok (.hdrEncode .fast) ∧
  decode 0x2000000002 = .ok (.hdrEncode .balanced) ∧ decode 0x2000000003 = .ok (.hdrEncode .best) ∧
  (∀ (arg : Word) (s : State), arg >>> 2 ≠ 0 → acceptWord (0x20#8 ++ arg) s = .next { s with status := 0x0F }) ∧
  (∀ level : Level, headerCM (encodedHeader level) = 8 ∧ headerCINFO (encodedHeader level) = 7 ∧
    headerFDICT (encodedHeader level) = 0)

/-- R132: the check digit is the unique value in 0..30 that makes the header value a multiple of 31, and OR-ing it in is adding it. -/
def Obligations.CheckDigitIsUnique : Prop :=
  ∀ cmf f0 : Nat, cmf < 256 → f0 < 256 → f0 % 32 = 0 →
    checkDigit cmf f0 ≤ 30 ∧
    ((cmf <<< 8) ||| f0 ||| checkDigit cmf f0) = cmf * 256 + f0 + checkDigit cmf f0 ∧
    ((cmf <<< 8) ||| f0 ||| checkDigit cmf f0) % 31 = 0 ∧
    ∀ c : Nat, c ≤ 30 → ((cmf <<< 8) ||| f0 ||| c) % 31 = 0 → c = checkDigit cmf f0

/-- R133: the four encoder outputs, with the remainders and check digits of the rule's table. -/
def Obligations.FourEncoderOutputs : Prop :=
  ∀ s : State,
    exec (.hdrEncode .none) s = .next { s with hdrOut := 0x7801, status := 0x00 } ∧
    exec (.hdrEncode .fast) s = .next { s with hdrOut := 0x785E, status := 0x00 } ∧
    exec (.hdrEncode .balanced) s = .next { s with hdrOut := 0x789C, status := 0x00 } ∧
    exec (.hdrEncode .best) s = .next { s with hdrOut := 0x78DA, status := 0x00 } ∧
    Level.none.code = 0 ∧ Level.fast.code = 1 ∧ Level.balanced.code = 2 ∧ Level.best.code = 3 ∧
    0x7800 % 31 = 30 ∧ 0x7840 % 31 = 1 ∧ 0x7880 % 31 = 3 ∧ 0x78C0 % 31 = 5 ∧
    checkDigit 0x78 0x00 = 1 ∧ checkDigit 0x78 0x40 = 30 ∧ checkDigit 0x78 0x80 = 28 ∧ checkDigit 0x78 0xC0 = 26

/-- R134: every HDR_ENCODE output decodes as valid, and HDR_IN.FLEVEL is then the level. -/
def Obligations.EncodedHeaderDecodes : Prop :=
  ∀ (level : Level) (s : State), ∃ t u, exec (.hdrEncode level) s = .next t ∧
    exec (.hdrDecode (t.hdrOut.extractLsb' 8 8) (t.hdrOut.extractLsb' 0 8)) t = .next u ∧
    u.status = 0x00 ∧ headerFLEVEL u.hdrIn = level.code ∧
    (headerCM t.hdrOut).toNat = 8 ∧ (headerCINFO t.hdrOut).toNat ≤ 7 ∧ t.hdrOut.toNat % 31 = 0

/-- R135 to R139: HDR_DECODE latches HDR_IN, and the first check that fails, in the order CM, CINFO, mod 31, FDICT, decides STATUS with
its INFO; its words; the words with a reserved bit set; the rule's example. -/
def Obligations.HdrDecodeValidatesInOrder : Prop :=
  (∀ (cmf flg : Byte) (s : State), exec (.hdrDecode cmf flg) s = .next { s with
    hdrIn := BitVec.ofNat 16 (cmf.toNat * 256 + flg.toNat),
    status :=
      if cmf.toNat % 16 ≠ 8 then BitVec.ofNat 8 (cmf.toNat % 16 * 16 + 3)
      else if 7 < cmf.toNat / 16 then BitVec.ofNat 8 (cmf.toNat / 16 * 16 + 4)
      else if (cmf.toNat * 256 + flg.toNat) % 31 ≠ 0 then 0x05
      else if flg.toNat / 32 % 2 ≠ 0 then 0x06
      else 0x00 }) ∧
  (∀ cmf flg : Byte, decode (0x21#8 ++ (0#16 ++ cmf ++ flg)) = .ok (.hdrDecode cmf flg)) ∧
  (∀ (arg : Word) (s : State), arg >>> 16 ≠ 0 → acceptWord (0x21#8 ++ arg) s = .next { s with status := 0x0F }) ∧
  (∀ s : State, acceptWord 0x210000789C s = .next { s with hdrIn := 0x789C, status := 0x00 })

/-- R141: precedence. Each check hides every later one, and the rule's three examples. -/
def Obligations.HdrDecodePrecedence : Prop :=
  (∀ (cmf flg : Byte) (s : State), cmf.toNat % 16 ≠ 8 →
    ∃ t, exec (.hdrDecode cmf flg) s = .next t ∧ t.statusCode = 0x3 ∧ t.statusInfo.toNat = cmf.toNat % 16) ∧
  (∀ (cmf flg : Byte) (s : State), cmf.toNat % 16 = 8 → 7 < cmf.toNat / 16 →
    ∃ t, exec (.hdrDecode cmf flg) s = .next t ∧ t.statusCode = 0x4 ∧ t.statusInfo.toNat = cmf.toNat / 16) ∧
  (∀ (cmf flg : Byte) (s : State), cmf.toNat % 16 = 8 → cmf.toNat / 16 ≤ 7 → (cmf.toNat * 256 + flg.toNat) % 31 ≠ 0 →
    ∃ t, exec (.hdrDecode cmf flg) s = .next t ∧ t.statusCode = 0x5 ∧ t.statusInfo = 0) ∧
  (∀ (flg : Byte) (s : State), ∃ t, exec (.hdrDecode 0x8F flg) s = .next t ∧ t.status = 0xF3) ∧
  (∀ s : State, ∃ t, exec (.hdrDecode 0x88 0x00) s = .next t ∧ t.status = 0x84) ∧
  (∀ s : State, ∃ t, exec (.hdrDecode 0x78 0x21) s = .next t ∧ t.status = 0x05)

/-- R142: a header is valid exactly with CM = 8, CINFO <= 7, FDICT = 0 and a multiple of 31; for each CINFO in 0..7 and FLEVEL in 0..3
there is exactly one FCHECK in 0..31, and it is in 1..30; the counts of the rule's table over all 65536 inputs. -/
def Obligations.ValidHeadersAreThese32 : Prop :=
  (∀ (cmf flg : Byte) (s : State), ∃ t, exec (.hdrDecode cmf flg) s = .next t ∧ t.statusCode = decodeCode cmf flg ∧
    (t.status = 0x00 ↔ cmf.toNat % 16 = 8 ∧ cmf.toNat / 16 ≤ 7 ∧ flg.toNat / 32 % 2 = 0 ∧
      (cmf.toNat * 256 + flg.toNat) % 31 = 0)) ∧
  (∀ cinfo flevel : Nat, cinfo < 8 → flevel < 4 → ∃ fcheck, 1 ≤ fcheck ∧ fcheck ≤ 30 ∧
    ∀ c : Nat, c < 32 →
      (decodeCode (BitVec.ofNat 8 (cinfo * 16 + 8)) (BitVec.ofNat 8 (flevel * 64 + c)) = 0x0 ↔ c = fcheck)) ∧
  countHeaders 0x0 = 32 ∧ countHeaders 0x3 = 61440 ∧ countHeaders 0x4 = 2048 ∧ countHeaders 0x5 = 1982 ∧
  countHeaders 0x6 = 34

/-- R201, R202: accepting any word, the block writes only the codes 0x0, 0x3, 0x4, 0x5, 0x6 and 0xF; INFO is `cm` with
InvalidCompressionMethod, `cinfo` with InvalidWindowSize, and 0 with every other code. -/
def Obligations.BlockWritesOnlyItsStatusCodes : Prop :=
  ∀ (cw : CommandWord) (s : State), ∃ t, acceptWord cw s = .next t ∧
    (t.statusCode = 0x0 ∨ t.statusCode = 0x3 ∨ t.statusCode = 0x4 ∨ t.statusCode = 0x5 ∨ t.statusCode = 0x6 ∨
      t.statusCode = 0xF) ∧
    (t.statusCode = 0x3 → ∃ cmf flg, decode cw = .ok (.hdrDecode cmf flg) ∧ t.statusInfo.toNat = cmf.toNat % 16) ∧
    (t.statusCode = 0x4 → ∃ cmf flg, decode cw = .ok (.hdrDecode cmf flg) ∧ t.statusInfo.toNat = cmf.toNat / 16) ∧
    (t.statusCode ≠ 0x3 → t.statusCode ≠ 0x4 → t.statusInfo = 0)

/-! ## Host-side sequences -/

/-- R164, R172, R174 (with R163): ENV_COMPRESS never fails, from any state and with any codec; its output is the two header
bytes, the codec's bytes, and A(x) big-endian; STATUS ends OK; the default level is balanced. That the sequence has the port to
itself and leaves the later inputs as they are is the model's choice (log 12). -/
def Obligations.EnvCompressBuildsTheStream : Prop :=
  (∀ (ε : Type) (codec : Config.DeflateCodec ε) (x : Bytes) (level : Level) (s : State), ∃ t,
    envCompress codec x level s = .done
      ([0x78, BitVec.ofNat 8 (level.code.toNat * 64 + checkDigit 0x78 (level.code.toNat * 64))] ++ codec.compress x level ++
        [(adler32 x).extractLsb' 24 8, (adler32 x).extractLsb' 16 8, (adler32 x).extractLsb' 8 8, (adler32 x).extractLsb' 0 8]) t ∧
    t.status = 0x00 ∧ t.value = adler32 x ∧ t.hdrIn = s.hdrIn ∧ t.inputs = s.inputs) ∧
  (∀ (ε : Type) (codec : Config.DeflateCodec ε) (x : Bytes) (s : State),
    envCompressDefault codec x s = envCompress codec x .balanced s)

/-- R165: ENV_WRAP d, level, x is ENV_COMPRESS with the codec's bytes replaced by d: the same header and the same trailer over
x. That the sequence has the port to itself is the model's choice (log 12). -/
def Obligations.EnvWrapTakesTheBytesGiven : Prop :=
  (∀ (ε : Type) (d x : Bytes) (level : Level) (s : State), ∃ t,
    (envWrap d level x s : SeqResult ε Bytes) = .done
      (headerBytes (encodedHeader level) ++ d ++ trailerBytes (adler32 x)) t ∧ t.status = 0x00) ∧
  (∀ (ε : Type) (codec : Config.DeflateCodec ε) (x : Bytes) (level : Level) (s : State),
    envCompress codec x level s = envWrap (codec.compress x level) level x s)

/-- R166, R168: ENV_UNWRAP fails Empty, then TooShort below 6 bytes, both without a command; else it fails with the header kind
HDR_DECODE reports, or returns the bytes between the header and the trailer. It never stops without a meaning. That nothing
lands between HDR_DECODE and the reading of STATUS is the model's choice (log 12); the last clause is about the model's refusal
of a code HDR_DECODE never writes (log 9, DEDUCED). -/
def Obligations.EnvUnwrapSlicesThePayload : Prop :=
  ∀ (ε : Type) (stream : Bytes) (s : State),
    (stream = [] → (envUnwrap stream s : SeqResult ε Bytes) = .failed .empty s) ∧
    (1 ≤ stream.length → stream.length < 6 → (envUnwrap stream s : SeqResult ε Bytes) = .failed .tooShort s) ∧
    (∀ (cmf flg : Byte) (payload trailer : Bytes), trailer.length = 4 → stream = cmf :: flg :: (payload ++ trailer) →
      ∃ t, exec (.hdrDecode cmf flg) s = .next t ∧
        (t.status = 0x00 → (envUnwrap stream s : SeqResult ε Bytes) = .done payload t) ∧
        (t.statusCode = 0x3 → (envUnwrap stream s : SeqResult ε Bytes) = .failed (.invalidCompressionMethod t.statusInfo) t) ∧
        (t.statusCode = 0x4 → (envUnwrap stream s : SeqResult ε Bytes) = .failed (.invalidWindowSize t.statusInfo) t) ∧
        (t.statusCode = 0x5 → (envUnwrap stream s : SeqResult ε Bytes) = .failed .invalidHeaderChecksum t) ∧
        (t.statusCode = 0x6 → (envUnwrap stream s : SeqResult ε Bytes) = .failed .presetDictionaryRequired t)) ∧
    (∀ r : Refusal, (envUnwrap stream s : SeqResult ε Bytes) ≠ .stopped r)

/-- R175 (with R167, R170, R176): ENV_DECOMPRESS reports the first error that applies, in the rule's order, with its payload;
else it returns the decompressed bytes. ENV_UNWRAP reports only the first six. That the sequence has the port to itself is the
model's choice (log 12). -/
def Obligations.EnvDecompressErrorPrecedence : Prop :=
  ∀ (ε : Type) (codec : Config.DeflateCodec ε) (s : State),
    envDecompress codec [] s = .failed .empty s ∧
    (∀ stream : Bytes, 1 ≤ stream.length → stream.length < 6 → envDecompress codec stream s = .failed .tooShort s) ∧
    (∀ (cmf flg t0 t1 t2 t3 : Byte) (payload : Bytes),
      let stream := cmf :: flg :: (payload ++ [t0, t1, t2, t3])
      let hv := cmf.toNat * 256 + flg.toNat
      ∃ u : State,
        envDecompress codec stream s =
          if cmf.toNat % 16 ≠ 8 then .failed (.invalidCompressionMethod (BitVec.ofNat 4 (cmf.toNat % 16))) u
          else if 7 < cmf.toNat / 16 then .failed (.invalidWindowSize (BitVec.ofNat 4 (cmf.toNat / 16))) u
          else if hv % 31 ≠ 0 then .failed .invalidHeaderChecksum u
          else if flg.toNat / 32 % 2 ≠ 0 then .failed .presetDictionaryRequired u
          else match codec.decompress payload with
            | .error e => .failed (.deflateError e) u
            | .ok r =>
              if adler32 r ≠ be32 t0 t1 t2 t3 then .failed (.checksumMismatch (be32 t0 t1 t2 t3) (adler32 r)) u
              else .done r u) ∧
    (∀ (stream : Bytes) (e : HostError ε) (t : State), envUnwrap stream s = .failed e t →
      (∀ expected actual : Word, e ≠ .checksumMismatch expected actual) ∧ ∀ inner : ε, e ≠ .deflateError inner)

/-- R173: under the codec law, ENV_DECOMPRESS of ENV_COMPRESS, or of ENV_WRAP of the codec's bytes, gives x back; ENV_UNWRAP of
ENV_COMPRESS gives exactly the codec's bytes. For every codec, every x, every level, and any block states. That each sequence
has the port to itself is the model's choice (log 12). -/
def Obligations.EnvelopeRoundTrip : Prop :=
  ∀ (ε : Type) (codec : Config.DeflateCodec ε) (x : Bytes) (level : Level) (s s' : State),
    ∃ stream t, envCompress codec x level s = .done stream t ∧
      (envWrap (codec.compress x level) level x s : SeqResult ε Bytes) = .done stream t ∧
      (∃ u, (envUnwrap stream s' : SeqResult ε Bytes) = .done (codec.compress x level) u) ∧
      (codec.Law → ∃ u, envDecompress codec stream s' = .done x u)

/-- R177: take a stream ENV_DECOMPRESS accepts and change one trailer byte to any other value; the result is ChecksumMismatch,
with the same `actual` and another `expected`. That the sequence has the port to itself in both runs is the model's choice (log
12). -/
def Obligations.TrailerIsChecked : Prop :=
  ∀ (ε : Type) (codec : Config.DeflateCodec ε) (stream r : Bytes) (s t s' : State) (k : Nat) (b : Byte),
    envDecompress codec stream s = .done r t → k < 4 → b ≠ byteAt stream (stream.length - 4 + k) →
    ∃ expected u, expected ≠ adler32 r ∧
      envDecompress codec (stream.set (stream.length - 4 + k) b) s' = .failed (.checksumMismatch expected (adler32 r)) u

/-- R171: appending to a buffer gives the buffer's bytes and then the fresh result; the bytes before are at the same offsets.
That the sequence has the port to itself is the model's choice (log 12). -/
def Obligations.AppendKeepsTheBuffer : Prop :=
  ∀ (ε : Type) (codec : Config.DeflateCodec ε) (buffer x : Bytes) (level : Level) (s : State),
    ∃ out t, envCompress codec x level s = .done out t ∧
      (envCompress codec x level s).appendTo buffer = .done (buffer ++ out) t ∧
      (∀ k < buffer.length, (buffer ++ out)[k]? = buffer[k]?) ∧
      (∀ (stream r : Bytes) (u : State), envDecompress codec stream s = .done r u →
        (envDecompress codec stream s).appendTo buffer = .done (buffer ++ r) u)

/-- R178, R32: a host that saves VALUE before a sequence and issues ADLER_SEED with it after has its own checksum back, with the
sequence's result, and the header registers as the sequence left them; CHECKSUM alone loses it. That the sequence and the
ADLER_SEED after it have the port to themselves is the model's choice (log 12). -/
def Obligations.SavingTheEngineAroundASequence : Prop :=
  (∀ (ε α : Type) (sequence : State → SeqResult ε α) (s : State), s.Bounded →
    (∀ a t, sequence s = .done a t →
      ∃ u, savingEngine sequence s = .done a u ∧ u.s1 = s.s1 ∧ u.s2 = s.s2 ∧ u.hdrOut = t.hdrOut ∧ u.hdrIn = t.hdrIn) ∧
    (∀ e t, sequence s = .failed e t →
      ∃ u, savingEngine sequence s = .failed e u ∧ u.s1 = s.s1 ∧ u.s2 = s.s2 ∧ u.hdrOut = t.hdrOut ∧ u.hdrIn = t.hdrIn)) ∧
  (∃ (x : Bytes) (s t : State), s.Bounded ∧ checksum x s = .next t ∧ t.value ≠ s.value)
end

