-- ==== Sys2Proof/Laws/Decode.lean ====
section
/-! SUPPORT. The command word's fields: taking a word apart and putting it together (spec/30_encoding.md R60, R63). -/

namespace Sys2Proof

theorem op_commandWord (op : BitVec 8) (arg : Word) : CommandWord.op (commandWord op arg) = op := by
  simp only [CommandWord.op, commandWord]
  exact BitVec.extractLsb'_append_eq_left

theorem arg_commandWord (op : BitVec 8) (arg : Word) : CommandWord.arg (commandWord op arg) = arg := by
  simp only [CommandWord.arg, commandWord]
  exact BitVec.extractLsb'_append_eq_right

/-- Every word is its opcode and its operand. -/
theorem commandWord_op_arg (cw : CommandWord) : commandWord cw.op cw.arg = cw := by
  simp only [CommandWord.op, CommandWord.arg, commandWord]
  apply BitVec.eq_of_getLsbD_eq
  intro i hi
  simp only [BitVec.getLsbD_append, BitVec.getLsbD_extractLsb']
  by_cases h : i < 32
  · simp [h]
  · have h1 : i - 32 < 8 := by omega
    have h2 : 32 + (i - 32) = i := by omega
    simp [h, h1, h2]

/-- Decoding a word put together from its fields is decoding the fields. -/
theorem decode_commandWord (op : BitVec 8) (arg : Word) : decode (commandWord op arg) = decodeFields op arg := by
  simp only [decode, op_commandWord, arg_commandWord]

theorem lane0_packLanes (x0 x1 x2 x3 : Byte) : lane (packLanes x0 x1 x2 x3) 0 = x0 := by
  apply BitVec.eq_of_getLsbD_eq
  intro i hi
  simp only [lane, packLanes, BitVec.getLsbD_append, BitVec.getLsbD_extractLsb']
  simp [hi]

theorem lane1_packLanes (x0 x1 x2 x3 : Byte) : lane (packLanes x0 x1 x2 x3) 1 = x1 := by
  apply BitVec.eq_of_getLsbD_eq
  intro i hi
  simp only [lane, packLanes, BitVec.getLsbD_append, BitVec.getLsbD_extractLsb']
  simp [hi]

theorem lane2_packLanes (x0 x1 x2 x3 : Byte) : lane (packLanes x0 x1 x2 x3) 2 = x2 := by
  apply BitVec.eq_of_getLsbD_eq
  intro i hi
  simp only [lane, packLanes, BitVec.getLsbD_append, BitVec.getLsbD_extractLsb']
  have h1 : ¬ 16 + i < 8 := by omega
  have h2 : ¬ 16 + i - 8 < 8 := by omega
  have h3 : 16 + i - 8 - 8 = i := by omega
  simp [hi, h1, h2, h3]

theorem lane3_packLanes (x0 x1 x2 x3 : Byte) : lane (packLanes x0 x1 x2 x3) 3 = x3 := by
  apply BitVec.eq_of_getLsbD_eq
  intro i hi
  simp only [lane, packLanes, BitVec.getLsbD_append, BitVec.getLsbD_extractLsb']
  have h1 : ¬ 24 + i < 8 := by omega
  have h2 : ¬ 24 + i - 8 < 8 := by omega
  have h3 : ¬ 24 + i - 8 - 8 < 8 := by omega
  have h4 : 24 + i - 8 - 8 - 8 = i := by omega
  simp [hi, h1, h2, h3, h4]

/-- Every operand word is its four lanes. -/
theorem packLanes_lanes (arg : Word) : packLanes (lane arg 0) (lane arg 1) (lane arg 2) (lane arg 3) = arg := by
  apply BitVec.eq_of_getLsbD_eq
  intro i hi
  simp only [lane, packLanes, BitVec.getLsbD_append, BitVec.getLsbD_extractLsb']
  by_cases h0 : i < 8
  · simp [h0]
  by_cases h1 : i < 16
  · have a : i - 8 < 8 := by omega
    have b : 8 + (i - 8) = i := by omega
    simp [h0, a, b]
  by_cases h2 : i < 24
  · have a : ¬ i - 8 < 8 := by omega
    have b : i - 8 - 8 < 8 := by omega
    have c : 16 + (i - 8 - 8) = i := by omega
    simp [h0, a, b, c]
  · have a : ¬ i - 8 < 8 := by omega
    have b : ¬ i - 8 - 8 < 8 := by omega
    have c : i - 8 - 8 - 8 < 8 := by omega
    have d : 24 + (i - 8 - 8 - 8) = i := by omega
    simp [h0, a, b, c, d]

/-- The lanes above a shift that leaves nothing are 0. -/
theorem lane_eq_zero_of_shift (arg : Word) (lo k : Nat) (h : arg >>> lo = 0) (hk : lo ≤ 8 * k) : lane arg k = 0 := by
  apply BitVec.eq_of_getLsbD_eq
  intro i hi
  have hb : (arg >>> lo).getLsbD (8 * k + i - lo) = false := by rw [h]; simp
  rw [BitVec.getLsbD_ushiftRight] at hb
  have : lo + (8 * k + i - lo) = 8 * k + i := by omega
  rw [this] at hb
  simp [lane, BitVec.getLsbD_extractLsb', hb]

/-- A packed operand sets no bit above its lanes in use. -/
theorem packLanes_shift8 (x0 : Byte) : packLanes x0 0 0 0 >>> 8 = 0 := by
  apply BitVec.eq_of_getLsbD_eq
  intro i hi
  simp only [packLanes, BitVec.getLsbD_ushiftRight, BitVec.getLsbD_append]
  have h1 : ¬ 8 + i < 8 := by omega
  simp [h1]

theorem packLanes_shift16 (x0 x1 : Byte) : packLanes x0 x1 0 0 >>> 16 = 0 := by
  apply BitVec.eq_of_getLsbD_eq
  intro i hi
  simp only [packLanes, BitVec.getLsbD_ushiftRight, BitVec.getLsbD_append]
  have h1 : ¬ 16 + i < 8 := by omega
  have h2 : ¬ 16 + i - 8 < 8 := by omega
  simp [h1, h2]

theorem packLanes_shift24 (x0 x1 x2 : Byte) : packLanes x0 x1 x2 0 >>> 24 = 0 := by
  apply BitVec.eq_of_getLsbD_eq
  intro i hi
  simp only [packLanes, BitVec.getLsbD_ushiftRight, BitVec.getLsbD_append]
  have h1 : ¬ 24 + i < 8 := by omega
  have h2 : ¬ 24 + i - 8 < 8 := by omega
  have h3 : ¬ 24 + i - 8 - 8 < 8 := by omega
  simp [h1, h2, h3]

theorem ofCode_code (l : Level) : Level.ofCode l.code = l := by cases l <;> decide

theorem code_ofCode (c : BitVec 2) : (Level.ofCode c).code = c := by revert c; decide

end Sys2Proof
end

