-- ==== Sys2Proof/Laws/State.lean ====
section
/-! SUPPORT. One lemma for each field of State under each named update, so that no later proof unfolds a record update. -/

namespace Sys2Proof.Machine

/-! ### complete -/

@[simp] theorem State.complete_s1 (s : State) : s.complete.s1 = s.s1 := rfl
@[simp] theorem State.complete_s2 (s : State) : s.complete.s2 = s.s2 := rfl
@[simp] theorem State.complete_hdrOut (s : State) : s.complete.hdrOut = s.hdrOut := rfl
@[simp] theorem State.complete_hdrIn (s : State) : s.complete.hdrIn = s.hdrIn := rfl
@[simp] theorem State.complete_status (s : State) : s.complete.status = 0x00 := rfl
@[simp] theorem State.complete_inputs (s : State) : s.complete.inputs = s.inputs := rfl

/-! ### raise -/

@[simp] theorem State.raise_s1 (k : StatusKind) (info : BitVec 4) (s : State) : (s.raise k info).s1 = s.s1 := rfl
@[simp] theorem State.raise_s2 (k : StatusKind) (info : BitVec 4) (s : State) : (s.raise k info).s2 = s.s2 := rfl
@[simp] theorem State.raise_hdrOut (k : StatusKind) (info : BitVec 4) (s : State) : (s.raise k info).hdrOut = s.hdrOut := rfl
@[simp] theorem State.raise_hdrIn (k : StatusKind) (info : BitVec 4) (s : State) : (s.raise k info).hdrIn = s.hdrIn := rfl
@[simp] theorem State.raise_status (k : StatusKind) (info : BitVec 4) (s : State) : (s.raise k info).status = statusWord info k := rfl
@[simp] theorem State.raise_inputs (k : StatusKind) (info : BitVec 4) (s : State) : (s.raise k info).inputs = s.inputs := rfl

/-! ### illegalCommand -/

@[simp] theorem State.illegalCommand_s1 (s : State) : s.illegalCommand.s1 = s.s1 := rfl
@[simp] theorem State.illegalCommand_s2 (s : State) : s.illegalCommand.s2 = s.s2 := rfl
@[simp] theorem State.illegalCommand_hdrOut (s : State) : s.illegalCommand.hdrOut = s.hdrOut := rfl
@[simp] theorem State.illegalCommand_hdrIn (s : State) : s.illegalCommand.hdrIn = s.hdrIn := rfl
@[simp] theorem State.illegalCommand_status (s : State) : s.illegalCommand.status = 0x0F := rfl
@[simp] theorem State.illegalCommand_inputs (s : State) : s.illegalCommand.inputs = s.inputs := rfl

/-! ### setSums -/

@[simp] theorem State.setSums_s1 (t1 t2 : Nat) (s : State) : (s.setSums t1 t2).s1 = BitVec.ofNat 32 t1 := rfl
@[simp] theorem State.setSums_s2 (t1 t2 : Nat) (s : State) : (s.setSums t1 t2).s2 = BitVec.ofNat 32 t2 := rfl
@[simp] theorem State.setSums_hdrOut (t1 t2 : Nat) (s : State) : (s.setSums t1 t2).hdrOut = s.hdrOut := rfl
@[simp] theorem State.setSums_hdrIn (t1 t2 : Nat) (s : State) : (s.setSums t1 t2).hdrIn = s.hdrIn := rfl
@[simp] theorem State.setSums_status (t1 t2 : Nat) (s : State) : (s.setSums t1 t2).status = s.status := rfl
@[simp] theorem State.setSums_inputs (t1 t2 : Nat) (s : State) : (s.setSums t1 t2).inputs = s.inputs := rfl

/-! ### setHdrOut -/

@[simp] theorem State.setHdrOut_s1 (h : HeaderWord) (s : State) : (s.setHdrOut h).s1 = s.s1 := rfl
@[simp] theorem State.setHdrOut_s2 (h : HeaderWord) (s : State) : (s.setHdrOut h).s2 = s.s2 := rfl
@[simp] theorem State.setHdrOut_hdrOut (h : HeaderWord) (s : State) : (s.setHdrOut h).hdrOut = h := rfl
@[simp] theorem State.setHdrOut_hdrIn (h : HeaderWord) (s : State) : (s.setHdrOut h).hdrIn = s.hdrIn := rfl
@[simp] theorem State.setHdrOut_status (h : HeaderWord) (s : State) : (s.setHdrOut h).status = s.status := rfl
@[simp] theorem State.setHdrOut_inputs (h : HeaderWord) (s : State) : (s.setHdrOut h).inputs = s.inputs := rfl

/-! ### setHdrIn -/

@[simp] theorem State.setHdrIn_s1 (h : HeaderWord) (s : State) : (s.setHdrIn h).s1 = s.s1 := rfl
@[simp] theorem State.setHdrIn_s2 (h : HeaderWord) (s : State) : (s.setHdrIn h).s2 = s.s2 := rfl
@[simp] theorem State.setHdrIn_hdrOut (h : HeaderWord) (s : State) : (s.setHdrIn h).hdrOut = s.hdrOut := rfl
@[simp] theorem State.setHdrIn_hdrIn (h : HeaderWord) (s : State) : (s.setHdrIn h).hdrIn = h := rfl
@[simp] theorem State.setHdrIn_status (h : HeaderWord) (s : State) : (s.setHdrIn h).status = s.status := rfl
@[simp] theorem State.setHdrIn_inputs (h : HeaderWord) (s : State) : (s.setHdrIn h).inputs = s.inputs := rfl

/-! ### resetRegisters -/

@[simp] theorem State.resetRegisters_s1 (s : State) : s.resetRegisters.s1 = 1 := rfl
@[simp] theorem State.resetRegisters_s2 (s : State) : s.resetRegisters.s2 = 0 := rfl
@[simp] theorem State.resetRegisters_hdrOut (s : State) : s.resetRegisters.hdrOut = 0x0000 := rfl
@[simp] theorem State.resetRegisters_hdrIn (s : State) : s.resetRegisters.hdrIn = 0x0000 := rfl
@[simp] theorem State.resetRegisters_status (s : State) : s.resetRegisters.status = 0x00 := rfl
@[simp] theorem State.resetRegisters_inputs (s : State) : s.resetRegisters.inputs = s.inputs := rfl

/-! ### present -/

@[simp] theorem State.present_s1 (cw : CommandWord) (s : State) : (s.present cw).s1 = s.s1 := rfl
@[simp] theorem State.present_s2 (cw : CommandWord) (s : State) : (s.present cw).s2 = s.s2 := rfl
@[simp] theorem State.present_hdrOut (cw : CommandWord) (s : State) : (s.present cw).hdrOut = s.hdrOut := rfl
@[simp] theorem State.present_hdrIn (cw : CommandWord) (s : State) : (s.present cw).hdrIn = s.hdrIn := rfl
@[simp] theorem State.present_status (cw : CommandWord) (s : State) : (s.present cw).status = s.status := rfl
@[simp] theorem State.present_inputs (cw : CommandWord) (s : State) : (s.present cw).inputs = .command cw :: s.inputs := rfl

end Sys2Proof.Machine
end

