-- ==== Sys2Proof/Laws/Ops.lean ====
section
/-! SUPPORT. What the shared operations do, said once: the byte step over a sequence in closed form, absorbing, the VALUE view, the
header value, the STATUS word. -/

namespace Sys2Proof.Machine

/-! ## Sums -/

theorem byteSum_nil : byteSum [] = 0 := rfl

theorem byteSum_cons (b : Byte) (rest : Bytes) : byteSum (b :: rest) = b.toNat + byteSum rest := rfl

theorem weightedSum_nil : weightedSum [] = 0 := rfl

/-- The first byte is in every prefix sum, the others are counted as before. -/
theorem weightedSum_cons (b : Byte) (rest : Bytes) :
    weightedSum (b :: rest) = (rest.length + 1) * b.toNat + weightedSum rest := by
  simp only [weightedSum, List.length_cons, List.range_succ_eq_map, List.map_cons, List.map_map, List.sum_cons]
  congr 2
  apply List.map_congr_left
  intro k _
  simp

theorem byteSum_append (x y : Bytes) : byteSum (x ++ y) = byteSum x + byteSum y := by
  simp [byteSum]

/-- Bytes put in front are counted once more for each byte after them. -/
theorem weightedSum_append (x y : Bytes) :
    weightedSum (x ++ y) = weightedSum x + y.length * byteSum x + weightedSum y := by
  induction x with
  | nil => simp [weightedSum_nil, byteSum_nil]
  | cons b rest ih =>
    simp only [List.cons_append, weightedSum_cons, byteSum_cons, ih, List.length_append]
    ring

theorem absorbSums_nil (t : Nat × Nat) : absorbSums t [] = t := rfl

theorem absorbSums_cons (t : Nat × Nat) (b : Byte) (rest : Bytes) :
    absorbSums t (b :: rest) = absorbSums (byteStep t b) rest := rfl

theorem absorbSums_append (t : Nat × Nat) (x y : Bytes) :
    absorbSums t (x ++ y) = absorbSums (absorbSums t x) y := by
  simp [absorbSums]

/-- The byte step over a sequence, in closed form on unbounded naturals. -/
theorem absorbSums_closed (a c : Nat) (x : Bytes) :
    absorbSums (a, c) x = (a + byteSum x, c + x.length * a + weightedSum x) := by
  induction x generalizing a c with
  | nil => simp [absorbSums_nil, byteSum_nil, weightedSum_nil]
  | cons b rest ih =>
    simp only [absorbSums_cons, byteStep, ih, byteSum_cons, weightedSum_cons, List.length_cons, Prod.mk.injEq]
    constructor <;> ring

/-! ## Absorbing -/

theorem toNat_residue (n : Nat) : (BitVec.ofNat 32 (n % Config.modAdler)).toNat = n % 65521 := by
  simp only [Config.modAdler, BitVec.toNat_ofNat]
  omega

theorem absorb_s1 (s : State) (x : Bytes) : (s.absorb x).s1.toNat = (s.s1.toNat + byteSum x) % 65521 := by
  simp only [State.absorb, absorbSums_closed, State.complete_s1, State.setSums_s1, toNat_residue]

theorem absorb_s2 (s : State) (x : Bytes) :
    (s.absorb x).s2.toNat = (s.s2.toNat + x.length * s.s1.toNat + weightedSum x) % 65521 := by
  simp only [State.absorb, absorbSums_closed, State.complete_s2, State.setSums_s2, toNat_residue]

@[simp] theorem absorb_hdrOut (s : State) (x : Bytes) : (s.absorb x).hdrOut = s.hdrOut := rfl
@[simp] theorem absorb_hdrIn (s : State) (x : Bytes) : (s.absorb x).hdrIn = s.hdrIn := rfl
@[simp] theorem absorb_status (s : State) (x : Bytes) : (s.absorb x).status = 0 := rfl
@[simp] theorem absorb_inputs (s : State) (x : Bytes) : (s.absorb x).inputs = s.inputs := rfl

/-- Absorbing leaves reduced sums. -/
theorem absorb_le (s : State) (x : Bytes) : (s.absorb x).s1.toNat ≤ 65520 ∧ (s.absorb x).s2.toNat ≤ 65520 := by
  rw [absorb_s1, absorb_s2]
  omega

/-- Two states whose fields agree are one state. -/
theorem State.eq_of_fields {s t : State} (h1 : s.s1 = t.s1) (h2 : s.s2 = t.s2) (h3 : s.hdrOut = t.hdrOut)
    (h4 : s.hdrIn = t.hdrIn) (h5 : s.status = t.status) (h6 : s.inputs = t.inputs) : s = t := by
  cases s; cases t; simp_all

/-- Reduction commutes with absorbing: two absorbed pieces are one. -/
theorem absorb_absorb (s : State) (x y : Bytes) : (s.absorb x).absorb y = s.absorb (x ++ y) := by
  apply State.eq_of_fields
  · apply BitVec.eq_of_toNat_eq
    rw [absorb_s1, absorb_s1, absorb_s1, byteSum_append]
    omega
  · apply BitVec.eq_of_toNat_eq
    rw [absorb_s2, absorb_s2, absorb_s2, absorb_s1, weightedSum_append, List.length_append]
    have e : s.s2.toNat + (x.length + y.length) * s.s1.toNat + (weightedSum x + y.length * byteSum x + weightedSum y)
        = (s.s2.toNat + x.length * s.s1.toNat + weightedSum x) + y.length * (s.s1.toNat + byteSum x) + weightedSum y := by
      ring
    rw [e]
    simp [Nat.add_mod, Nat.mul_mod]
  all_goals rfl

/-! ## VALUE -/

theorem value_toNat (s : State) : s.value.toNat = s.s2.toNat % 2 ^ 16 * 2 ^ 16 + s.s1.toNat % 2 ^ 16 := by
  simp only [State.value, BitVec.toNat_or, BitVec.toNat_shiftLeft, BitVec.toNat_setWidth, BitVec.extractLsb'_toNat]
  simp only [Nat.shiftRight_zero]
  have h1 : s.s1.toNat % 2 ^ 16 < 2 ^ 16 := Nat.mod_lt _ (by decide)
  have h2 : s.s2.toNat % 2 ^ 16 < 2 ^ 16 := Nat.mod_lt _ (by decide)
  rw [Nat.mod_eq_of_lt (a := s.s2.toNat % 2 ^ 16) (by omega), Nat.mod_eq_of_lt (a := s.s1.toNat % 2 ^ 16) (by omega),
    Nat.mod_eq_of_lt (by simp only [Nat.shiftLeft_eq]; omega), ← Nat.shiftLeft_add_eq_or_of_lt h1]
  simp only [Nat.shiftLeft_eq]

/-! ## Header values and STATUS words -/

theorem be16_toNat (a b : Byte) : (be16 a b).toNat = a.toNat * 256 + b.toNat := by
  have ha := a.isLt
  have hb := b.isLt
  simp only [be16, BitVec.toNat_or, BitVec.toNat_shiftLeft, BitVec.toNat_setWidth]
  rw [Nat.mod_eq_of_lt (a := b.toNat) (by omega), Nat.mod_eq_of_lt (a := a.toNat) (by omega)]
  rw [Nat.mod_eq_of_lt (a := a.toNat <<< 8) (by simp only [Nat.shiftLeft_eq]; omega)]
  rw [← Nat.shiftLeft_add_eq_or_of_lt hb]
  simp only [Nat.shiftLeft_eq]

theorem code_statusWord (info : BitVec 4) (k : StatusKind) : (statusWord info k).extractLsb' 0 4 = k.code := by
  cases k <;> revert info <;> decide

theorem info_statusWord (info : BitVec 4) (k : StatusKind) : (statusWord info k).extractLsb' 4 4 = info := by
  cases k <;> revert info <;> decide

theorem ofCode_code_kind (k : StatusKind) : StatusKind.ofCode k.code = some k := by
  cases k <;> decide

end Sys2Proof.Machine
end

