-- ==== Sys2Proof/Laws/PerInstr.lean ====
section
/-! SUPPORT. Families of statements per instruction, one lemma a constructor. -/

namespace Sys2Proof.Laws.Fields

/-- A command's word has the command's opcode in `CW[39:32]`, its operand in `CW[31:0]`, and sets none of the opcode's reserved-zero bits
(spec/30_encoding.md R60, R62, R63). -/
def Statement (i : Instr) : Prop :=
  CommandWord.op (encode i) = i.opcode ∧ CommandWord.arg (encode i) = i.operand ∧
    ∃ mask, reservedZeroBits i.opcode = some mask ∧ i.operand &&& mask = 0

/-- Bits a packed operand leaves 0 are 0 under any mask that stays above its lanes. -/
theorem and_high_eq_zero (x mask : Word) (n : Nat) (hx : x >>> n = 0) (hm : mask <<< (32 - n) = 0) (hn : n ≤ 32) :
    x &&& mask = 0 := by
  apply BitVec.eq_of_getLsbD_eq
  intro i hi
  rw [BitVec.getLsbD_and]
  by_cases h : n ≤ i
  · have hb : (x >>> n).getLsbD (i - n) = false := by rw [hx]; simp
    rw [BitVec.getLsbD_ushiftRight, show n + (i - n) = i by omega] at hb
    simp [hb]
  · have hb : (mask <<< (32 - n)).getLsbD (i + (32 - n)) = false := by rw [hm]; simp
    have h1 : i + (32 - n) < 32 := by omega
    rw [BitVec.getLsbD_shiftLeft, show i + (32 - n) - (32 - n) = i by omega] at hb
    simp only [h1, decide_true, Bool.true_and, show ¬ (i + (32 - n) < 32 - n) by omega, decide_false, Bool.not_false] at hb
    simp only [hb, Bool.and_false, BitVec.ofNat_eq_ofNat, BitVec.getLsbD_zero]

theorem adlerInit : Statement .adlerInit :=
  ⟨op_commandWord _ _, arg_commandWord _ _, 0xFFFFFFFF, rfl, by decide⟩

theorem adlerSeed (seed : Word) : Statement (.adlerSeed seed) :=
  ⟨op_commandWord _ _, arg_commandWord _ _, 0, rfl, by simp⟩

theorem adlerUpdate0 : Statement .adlerUpdate0 :=
  ⟨op_commandWord _ _, arg_commandWord _ _, 0xFFFFFFFF, rfl, by decide⟩

theorem adlerUpdate1 (b0 : Byte) : Statement (.adlerUpdate1 b0) :=
  ⟨op_commandWord _ _, arg_commandWord _ _, 0xFFFFFF00, rfl,
    and_high_eq_zero _ _ 8 (packLanes_shift8 b0) (by decide) (by decide)⟩

theorem adlerUpdate2 (b0 b1 : Byte) : Statement (.adlerUpdate2 b0 b1) :=
  ⟨op_commandWord _ _, arg_commandWord _ _, 0xFFFF0000, rfl,
    and_high_eq_zero _ _ 16 (packLanes_shift16 b0 b1) (by decide) (by decide)⟩

theorem adlerUpdate3 (b0 b1 b2 : Byte) : Statement (.adlerUpdate3 b0 b1 b2) :=
  ⟨op_commandWord _ _, arg_commandWord _ _, 0xFF000000, rfl,
    and_high_eq_zero _ _ 24 (packLanes_shift24 b0 b1 b2) (by decide) (by decide)⟩

theorem adlerUpdate4 (b0 b1 b2 b3 : Byte) : Statement (.adlerUpdate4 b0 b1 b2 b3) :=
  ⟨op_commandWord _ _, arg_commandWord _ _, 0, rfl, by simp⟩

theorem hdrEncode (level : Level) : Statement (.hdrEncode level) :=
  ⟨op_commandWord _ _, arg_commandWord _ _, 0xFFFFFFFC, rfl, by cases level <;> decide⟩

theorem hdrDecode (cmf flg : Byte) : Statement (.hdrDecode cmf flg) :=
  ⟨op_commandWord _ _, arg_commandWord _ _, 0xFFFF0000, rfl,
    and_high_eq_zero _ _ 16 (packLanes_shift16 flg cmf) (by decide) (by decide)⟩

end Sys2Proof.Laws.Fields
end

