-- ==== Sys2Proof/Laws/Step.lean ====
section
/-! SUPPORT. What a command and a step can do, said once. -/

namespace Sys2Proof.Machine

/-- The state a command leaves: every command answers a next state. -/
theorem exec_cases (i : Instr) (s : State) :
    (i = .adlerInit ∧ exec i s = .next (s.setSums 1 0).complete) ∨
    (∃ seed : Word, i = .adlerSeed seed ∧
      exec i s = .next (s.setSums (seed.extractLsb' 0 16).toNat (seed.extractLsb' 16 16).toNat).complete) ∨
    (∃ c : Bytes, c.length ≤ 4 ∧ i = updateCommand c ∧ exec i s = .next (s.absorb c)) ∨
    (∃ level, i = .hdrEncode level ∧ exec i s = .next (s.setHdrOut (encodedHeader level)).complete) ∨
    (∃ cmf flg, i = .hdrDecode cmf flg ∧ exec i s = .next ((s.setHdrIn (be16 cmf flg)).validateHeader cmf flg)) := by
  cases i with
  | adlerInit => exact .inl ⟨rfl, rfl⟩
  | adlerSeed seed => exact .inr (.inl ⟨seed, rfl, rfl⟩)
  | adlerUpdate0 => exact .inr (.inr (.inl ⟨[], by decide, rfl, rfl⟩))
  | adlerUpdate1 b0 => exact .inr (.inr (.inl ⟨[b0], by simp, rfl, rfl⟩))
  | adlerUpdate2 b0 b1 => exact .inr (.inr (.inl ⟨[b0, b1], by simp, rfl, rfl⟩))
  | adlerUpdate3 b0 b1 b2 => exact .inr (.inr (.inl ⟨[b0, b1, b2], by simp, rfl, rfl⟩))
  | adlerUpdate4 b0 b1 b2 b3 => exact .inr (.inr (.inl ⟨[b0, b1, b2, b3], by simp, rfl, rfl⟩))
  | hdrEncode level => exact .inr (.inr (.inr (.inl ⟨level, rfl, rfl⟩)))
  | hdrDecode cmf flg => exact .inr (.inr (.inr (.inr ⟨cmf, flg, rfl, rfl⟩)))

/-- The update command of a chunk absorbs the chunk. -/
theorem exec_updateCommand (c : Bytes) (h : c.length ≤ 4) (s : State) :
    exec (updateCommand c) s = .next (s.absorb c) := by
  match c, h with
  | [], _ => rfl
  | [_], _ => rfl
  | [_, _], _ => rfl
  | [_, _, _], _ => rfl
  | [_, _, _, _], _ => rfl

/-- What the checks of HDR_DECODE can end with. -/
theorem validateHeader_cases (cmf flg : Byte) (s : State) :
    (cmfMethod cmf ≠ 8 ∧ s.validateHeader cmf flg = s.raise .invalidCompressionMethod (cmfMethod cmf)) ∨
    (cmfMethod cmf = 8 ∧ 7 < (cmfWindow cmf).toNat ∧ s.validateHeader cmf flg = s.raise .invalidWindowSize (cmfWindow cmf)) ∨
    (cmfMethod cmf = 8 ∧ (cmfWindow cmf).toNat ≤ 7 ∧ (be16 cmf flg).toNat % 31 ≠ 0 ∧
      s.validateHeader cmf flg = s.raise .invalidHeaderChecksum 0) ∨
    (cmfMethod cmf = 8 ∧ (cmfWindow cmf).toNat ≤ 7 ∧ (be16 cmf flg).toNat % 31 = 0 ∧ flgDict flg ≠ 0 ∧
      s.validateHeader cmf flg = s.raise .presetDictionaryRequired 0) ∨
    (cmfMethod cmf = 8 ∧ (cmfWindow cmf).toNat ≤ 7 ∧ (be16 cmf flg).toNat % 31 = 0 ∧ flgDict flg = 0 ∧
      s.validateHeader cmf flg = s.complete) := by
  simp only [State.validateHeader, Config.modHdr]
  by_cases h1 : cmfMethod cmf = 8
  · by_cases h2 : 7 < (cmfWindow cmf).toNat
    · exact .inr (.inl ⟨h1, h2, by rw [if_neg (not_not.mpr h1), if_pos h2]⟩)
    · have h2' : (cmfWindow cmf).toNat ≤ 7 := by omega
      by_cases h3 : (be16 cmf flg).toNat % 31 = 0
      · by_cases h4 : flgDict flg = 0
        · exact .inr (.inr (.inr (.inr ⟨h1, h2', h3, h4, by
            rw [if_neg (not_not.mpr h1), if_neg h2, if_neg (not_not.mpr h3), if_neg (not_not.mpr h4)]⟩)))
        · exact .inr (.inr (.inr (.inl ⟨h1, h2', h3, h4, by
            rw [if_neg (not_not.mpr h1), if_neg h2, if_neg (not_not.mpr h3), if_pos h4]⟩)))
      · exact .inr (.inr (.inl ⟨h1, h2', h3, by rw [if_neg (not_not.mpr h1), if_neg h2, if_pos h3]⟩))
  · exact .inl ⟨h1, by rw [if_pos h1]⟩

/-- The checks write STATUS alone. -/
theorem validateHeader_frame (cmf flg : Byte) (s : State) :
    (s.validateHeader cmf flg).s1 = s.s1 ∧ (s.validateHeader cmf flg).s2 = s.s2 ∧
    (s.validateHeader cmf flg).hdrOut = s.hdrOut ∧ (s.validateHeader cmf flg).hdrIn = s.hdrIn ∧
    (s.validateHeader cmf flg).inputs = s.inputs := by
  rcases validateHeader_cases cmf flg s with ⟨-, h⟩ | ⟨-, -, h⟩ | ⟨-, -, -, h⟩ | ⟨-, -, -, -, h⟩ | ⟨-, -, -, -, h⟩ <;>
    rw [h] <;> exact ⟨rfl, rfl, rfl, rfl, rfl⟩

/-- What accepting a word can do. -/
theorem acceptWord_cases (cw : CommandWord) (s : State) :
    (∃ i, decode cw = .ok i ∧ acceptWord cw s = exec i s) ∨
    (∃ e, decode cw = .error e ∧ acceptWord cw s = .next s.illegalCommand) := by
  unfold acceptWord
  cases h : decode cw with
  | ok i => exact .inl ⟨i, rfl, rfl⟩
  | error e => exact .inr ⟨e, rfl, rfl⟩

/-- What a step can do: nothing where the host drives nothing, else reset, accept one word, or let the sample pass. -/
theorem step_cases (s : State) :
    (s.inputs = [] ∧ step s = .next s) ∨
    (∃ p rest, s.inputs = p :: rest ∧
      ((p.rst = true ∧ step s = .next { s with inputs := rest }.resetRegisters) ∨
       (p.rst = false ∧ p.cmdValid = true ∧ step s = acceptWord p.cmdWord { s with inputs := rest }) ∨
       (p.rst = false ∧ p.cmdValid = false ∧ step s = .next { s with inputs := rest }))) := by
  unfold step serveNext
  cases h : s.inputs with
  | nil => exact .inl ⟨rfl, rfl⟩
  | cons p rest =>
    refine .inr ⟨p, rest, rfl, ?_⟩
    cases hr : p.rst with
    | true => exact .inl ⟨rfl, by simp [servePorts, hr]⟩
    | false =>
      cases hv : p.cmdValid with
      | true => exact .inr (.inl ⟨rfl, rfl, by simp [servePorts, hr, hv]⟩)
      | false => exact .inr (.inr ⟨rfl, rfl, by simp [servePorts, hr, hv]⟩)

/-- A presented word is accepted by the next step, and the rest of the schedule is as before. -/
theorem step_present (cw : CommandWord) (s : State) : step (s.present cw) = acceptWord cw s := rfl

/-! ## Every step answers a next state -/

/-- A command answers a next state and leaves the host's schedule. -/
theorem exec_next (i : Instr) (s : State) : ∃ t, exec i s = .next t ∧ t.inputs = s.inputs := by
  rcases exec_cases i s with ⟨-, h⟩ | ⟨_, -, h⟩ | ⟨_, -, -, h⟩ | ⟨_, -, h⟩ | ⟨c, f, -, h⟩
  · exact ⟨_, h, rfl⟩
  · exact ⟨_, h, rfl⟩
  · exact ⟨_, h, rfl⟩
  · exact ⟨_, h, rfl⟩
  · exact ⟨_, h, (validateHeader_frame c f _).2.2.2.2⟩

/-- Accepting a word answers a next state and leaves the host's schedule. -/
theorem acceptWord_next (cw : CommandWord) (s : State) : ∃ t, acceptWord cw s = .next t ∧ t.inputs = s.inputs := by
  rcases acceptWord_cases cw s with ⟨i, -, h⟩ | ⟨e, -, h⟩
  · rw [h]; exact exec_next i s
  · exact ⟨_, h, rfl⟩

/-- A step answers a next state and takes one port sample. -/
theorem step_next (s : State) : ∃ t, step s = .next t ∧ t.inputs = s.inputs.drop 1 := by
  rcases step_cases s with ⟨h, e⟩ | ⟨p, rest, h, ⟨-, e⟩ | ⟨-, -, e⟩ | ⟨-, -, e⟩⟩
  · exact ⟨_, e, by simp [h]⟩
  · exact ⟨_, e, by simp [h]⟩
  · rw [e, h]; exact acceptWord_next _ _
  · exact ⟨_, e, by simp [h]⟩

/-! ## Runs -/

theorem runSteps_zero (s : State) : runSteps 0 s = .next s := rfl

/-- A run is its first step and then the rest. -/
theorem runSteps_succ (k : Nat) {s t : State} (h : step s = .next t) : runSteps (k + 1) s = runSteps k t := by
  have h' : Sys2Proof.core.step s = .next t := h
  simp only [runSteps, Host.Core.run, h']
  rfl

end Sys2Proof.Machine
end

