-- ==== Sys2Proof/Tests/Slice0.lean ====
section
/-! SUPPORT. The model's own tests. Expected values come from the spec: words written out from the tables of spec/30_encoding.md and
opcode_table.json, results from spec/95_test_vectors.md (its row is named at each test) or from the rule named. The last part shows, for
every statement with hypotheses, concrete values that meet them. -/

open Sys2Proof Sys2Proof.Machine

namespace Sys2Proof.Tests

/-- The next state of an outcome, for comparing by `decide`. -/
def next? (o : Host.Outcome State Fault Refusal) : Option State :=
  match o with
  | .next s => some s
  | .fault _ => none
  | .refused _ => none

/-- A state with given sums and nothing else of interest. -/
def sums (s1 s2 : Word) : State := { State.reset with s1 := s1, s2 := s2 }

/-- A state in which the host drives the given samples. -/
def driving (inputs : List PortSample) : State := { State.reset with inputs := inputs }

/-- S1, S2, VALUE, HDR_OUT, HDR_IN, STATUS, as 95_test_vectors.md writes a state. -/
def row (o : Host.Outcome State Fault Refusal) : Option (Word × Word × Word × HeaderWord × HeaderWord × BitVec 8) :=
  (next? o).map fun s => (s.s1, s.s2, s.value, s.hdrOut, s.hdrIn, s.status)

/-- A codec that stores its input: it meets the codec law. -/
def storingCodec : Config.DeflateCodec Unit := ⟨fun x _ => x, fun x => .ok x⟩

/-! ## Ill-formed terms -/

-- L2-I of 95_test_vectors.md, and one reserved bit for each row of R63
theorem test_illegal_op_zero : wordLegal 0x0000000000 = false := by decide
theorem test_illegal_op_unassigned : wordLegal 0x1500000000 = false ∧ wordLegal 0xFFFFFFFFFF = false := by decide
theorem test_illegal_init_arg : wordLegal 0x0100000001 = false := by decide
theorem test_illegal_update0_arg : wordLegal 0x1000000001 = false := by decide
theorem test_illegal_update1_lane1 : wordLegal 0x1100000157 = false := by decide
theorem test_illegal_update2_lane2 : wordLegal 0x1200010000 = false := by decide
theorem test_illegal_update3_lane3 : wordLegal 0x1301000000 = false := by decide
theorem test_illegal_encode_bit2 : wordLegal 0x2000000004 = false := by decide
theorem test_illegal_decode_bit16 : wordLegal 0x210001789C = false := by decide
theorem test_reserved_table_unassigned : reservedZeroBits 0x15 = none := by decide
-- R69: HDR_ENCODE with no operand is not a legal spelling
theorem test_asm_operand_count : AsmCommand.operandCountOk ⟨.hdrEncode, []⟩ = false := by decide
-- R68: a literal that does not fit its width is an error
theorem test_asm_literal_too_wide : AsmCommand.literalsFit ⟨.adlerUpdate2, [0x61, 0x100]⟩ = false := by decide
theorem test_asm_ill_formed : AsmCommand.wellFormed ⟨.adlerSeed, [0x100000000]⟩ = false := by decide

/-! ## Decoding: a word for every constructor, written out from its encoding -/

theorem test_decode_init : decode 0b0000000100000000000000000000000000000000 = .ok .adlerInit := by decide
theorem test_decode_seed : decode 0b0000001000010010001101000101011001111000 = .ok (.adlerSeed 0x12345678) := by decide
theorem test_decode_update0 : decode 0b0001000000000000000000000000000000000000 = .ok .adlerUpdate0 := by decide
theorem test_decode_update1 : decode 0b0001000100000000000000000000000011111111 = .ok (.adlerUpdate1 0xFF) := by decide
theorem test_decode_update2 : decode 0b0001001000000000000000000000001000000001 = .ok (.adlerUpdate2 1 2) := by decide
theorem test_decode_update3 : decode 0b0001001100000000000000110000001000000001 = .ok (.adlerUpdate3 1 2 3) := by decide
theorem test_decode_update4 : decode 0b0001010000000100000000110000001000000001 = .ok (.adlerUpdate4 1 2 3 4) := by decide
theorem test_decode_encode : decode 0b0010000000000000000000000000000000000011 = .ok (.hdrEncode .best) := by decide
theorem test_decode_decode : decode 0b0010000100000000000000000111100010011100 = .ok (.hdrDecode 0x78 0x9C) := by decide
theorem test_decode_table_word : decodeTableWord 40 0x14696B6957 = some (.adlerUpdate4 0x57 0x69 0x6B 0x69) := by decide
theorem test_encode_update4 : encode (.adlerUpdate4 0x57 0x69 0x6B 0x69) = 0x14696B6957 := by decide
theorem test_fetch_word_runs : (next? (step (State.reset.withFetchWord 40 0x14696B6957))).map (·.value) = some 0x03DA0195 := by decide

/-! ## Meanings (95_test_vectors.md) -/

-- L2-A
theorem test_init_after_unreduced : row (exec .adlerInit (sums 0xFFFF 0xFFFF)) = some (1, 0, 1, 0, 0, 0) := by decide
theorem test_seed_split : row (exec (.adlerSeed 0xFFF10000) (sums 1 0)) = some (0, 0xFFF1, 0xFFF10000, 0, 0, 0) := by decide
-- L2-B
theorem test_update0_reduces : row (exec .adlerUpdate0 (sums 0xFFFF 0xFFFF)) = some (0x0E, 0x0E, 0x000E000E, 0, 0, 0) := by decide
theorem test_update1_wraps : row (exec (.adlerUpdate1 0x01) (sums 0xFFF0 0xFFF0)) = some (0, 0xFFF0, 0xFFF00000, 0, 0, 0) := by decide
theorem test_update1_unreduced : row (exec (.adlerUpdate1 0x00) (sums 0xFFFF 0xFFFF)) = some (0x0E, 0x1C, 0x001C000E, 0, 0, 0) := by decide
theorem test_update2_ff : row (exec (.adlerUpdate2 0xFF 0xFF) (sums 1 0)) = some (0x01FF, 0x02FF, 0x02FF01FF, 0, 0, 0) := by decide
theorem test_update3_order : row (exec (.adlerUpdate3 1 2 3) (sums 1 0)) = some (7, 0x0D, 0x000D0007, 0, 0, 0) := by decide
theorem test_update4_largest : row (exec (.adlerUpdate4 0xFF 0xFF 0xFF 0xFF) (sums 0xFFFF 0xFFFF)) = some (0x040A, 0x0A3C, 0x0A3C040A, 0, 0, 0) := by decide
theorem test_update4_seeded : row (exec (.adlerUpdate4 1 2 3 4) (sums 0x5678 0x1234)) = some (0x5682, 0x6C37, 0x6C375682, 0, 0, 0) := by decide
-- L2-H
theorem test_encode_fast : row (exec (.hdrEncode .fast) (sums 1 0)) = some (1, 0, 1, 0x785E, 0, 0) := by decide
theorem test_encode_best : row (exec (.hdrEncode .best) (sums 1 0)) = some (1, 0, 1, 0x78DA, 0, 0) := by decide
-- L2-D
theorem test_decode_window_first : row (exec (.hdrDecode 0x88 0x00) (sums 1 0)) = some (1, 0, 1, 0, 0x8800, 0x84) := by decide
theorem test_decode_dictionary : row (exec (.hdrDecode 0x78 0x20) (sums 1 0)) = some (1, 0, 1, 0, 0x7820, 0x06) := by decide
-- L2-I
theorem test_illegal_effect : row (acceptWord 0x210001789C (sums 1 0)) = some (1, 0, 1, 0, 0, 0x0F) := by decide

/-! ## Ports and sequences -/

-- R231: a command presented while rst is asserted is not accepted
theorem test_reset_takes_no_command :
    row (step { sums 5 6 with inputs := [⟨true, 0x2000000002, true⟩] }) = some (1, 0, 1, 0, 0, 0) := by decide
-- L1-3
theorem test_checksum_wikipedia :
    row (checksum [0x57, 0x69, 0x6B, 0x69, 0x70, 0x65, 0x64, 0x69, 0x61] State.reset) = some (0x0398, 0x11E6, 0x11E60398, 0, 0, 0) := by decide
-- P6, with an empty payload standing for the opaque D
theorem test_compress_empty : envCompress storingCodec [] .balanced State.reset =
    .done [0x78, 0x9C, 0, 0, 0, 1] { State.reset with hdrOut := 0x789C } := by decide
theorem test_decompress_flipped : envDecompress storingCodec [0x78, 0x9C, 0, 0, 0, 0] State.reset =
    .failed (.checksumMismatch 0 1) { State.reset with hdrIn := 0x789C } := by decide
-- P4 (c), (f)
theorem test_unwrap_method : (envUnwrap [0x70, 0, 0, 0, 0, 1] State.reset : SeqResult Unit Bytes) =
    .failed (.invalidCompressionMethod 0) { State.reset with hdrIn := 0x7000, status := 0x03 } := by decide
theorem test_unwrap_window : (envUnwrap [0x88, 0, 0, 0, 0, 1] State.reset : SeqResult Unit Bytes) =
    .failed (.invalidWindowSize 8) { State.reset with hdrIn := 0x8800, status := 0x84 } := by decide
-- R68; the word is L2-B's
theorem test_assemble_line : assembleLine "ADLER_UPDATE4 0x57, 'i', 107, 0b1101001 ; Wiki".toList =
    .ok (some (.adlerUpdate4 0x57 0x69 0x6B 0x69)) := by decide
theorem test_assemble_level : assembleLine "HDR_ENCODE balanced".toList = .ok (some (.hdrEncode .balanced)) := by decide
theorem test_assemble_too_wide : assembleLine "HDR_DECODE 0x78, 0x100".toList = .error .literalTooWide := by decide

/-! ## Witnesses: the hypotheses of each statement can be met -/

/-- The sample of a host that presents ADLER_INIT. -/
def initSample : PortSample := .command 0x0100000000

theorem witness_ResetStepSetsEveryRegister :
    (driving [⟨true, 0x0100000000, true⟩, initSample]).inputs = ⟨true, 0x0100000000, true⟩ :: [initSample] := rfl

theorem witness_ResetAcceptsNoCommand :
    (driving [⟨true, 0xFFFFFFFFFF, true⟩]).inputs = ⟨true, 0xFFFFFFFFFF, true⟩ :: [] ∧
    (driving [initSample, .reset]).inputs = .command 0x0100000000 :: PortSample.reset :: [] ∧ PortSample.reset.rst = true := by decide

theorem witness_StepRunsTheDecodedCommand :
    ((driving [initSample]).inputs = .command 0x0100000000 :: [] ∧ decode 0x0100000000 = .ok .adlerInit) ∧
    ((driving [.command 0]).inputs = .command 0 :: [] ∧ decode 0 = .error (.unassignedOpcode 0)) ∧
    State.reset.inputs = [] := by decide

theorem witness_AcceptedCommandIsPerformedOnce :
    (driving [⟨true, 1, false⟩]).inputs = ⟨true, 1, false⟩ :: [] ∧
    (driving [⟨false, 1, false⟩]).inputs = ⟨false, 1, false⟩ :: [] ∧
    (driving [⟨true, 1, true⟩, ⟨false, 2, false⟩]).inputs = ⟨true, 1, true⟩ :: ⟨false, 2, false⟩ :: [] := by decide

theorem witness_HeldCommandIsAcceptedAfterReset :
    (driving [⟨true, 1, true⟩, .command 1, initSample]).inputs = List.replicate (0 + 1) ⟨true, 1, true⟩ ++ .command 1 :: [initSample] := by decide

theorem witness_RunsEndWithoutFault :
    ((driving [.command 0]).accepted = some 0 ∧ wordLegal 0 = false) ∧
    (LegalSchedule (driving [initSample]).inputs ∧ (driving [initSample]).status ≠ 0x0F ∧
      runSteps 1 (driving [initSample]) = .next State.reset) := by
  refine ⟨by decide, ?_, by decide, rfl⟩
  intro p hp cw h
  obtain rfl := List.mem_singleton.1 hp
  cases h
  decide

theorem witness_StepKeepsBlockInvariant :
    (driving [initSample]).Inv ∧ step (driving [initSample]) = .next State.reset :=
  ⟨⟨by unfold State.Bounded; decide, by decide, .inl rfl⟩, rfl⟩

theorem witness_SumsStayBounded :
    ((sums 0xFFFF 0xFFFF).Bounded ∧ step (sums 0xFFFF 0xFFFF) = .next (sums 0xFFFF 0xFFFF)) ∧
    (isUpdate .adlerUpdate0 = true) ∧
    ((sums 0xFFF0 0xFFF0).Reduced ∧ exec .adlerInit (sums 0xFFF0 0xFFF0) = .next State.reset) :=
  ⟨⟨by unfold State.Bounded; decide, rfl⟩, rfl, by unfold State.Reduced; decide, rfl⟩

theorem witness_SaveAndRestoreIsExact : (sums 0xFFFF 0xFFFF).Bounded ∧ (sums 0 0).Bounded := by
  unfold State.Bounded; decide

theorem witness_ValueIsBothSums : (sums 0xFFFF 0xFFFF).Bounded ∧ (sums 0 0).Bounded := by
  unfold State.Bounded; decide

theorem witness_OnlyItsCommandsWriteARegister :
    (step { sums 5 0 with inputs := [initSample] } = .next State.reset ∧ initSample.rst = false ∧ State.reset.s1 ≠ (sums 5 0).s1) ∧
    (step (driving [.command 0x2000000002]) = .next { State.reset with hdrOut := 0x789C } ∧ (0x789C : HeaderWord) ≠ State.reset.hdrOut) ∧
    (step (driving [.command 0x210000789C]) = .next { State.reset with hdrIn := 0x789C } ∧ (0x789C : HeaderWord) ≠ State.reset.hdrIn) ∧
    (step (driving [.command 0]) = .next { State.reset with status := 0x0F } ∧ (0x0F : BitVec 8) ≠ State.reset.status) := by
  refine ⟨⟨rfl, ?_⟩, ⟨rfl, ?_⟩, ⟨rfl, ?_⟩, ⟨rfl, ?_⟩⟩ <;> decide

theorem witness_HdrOutHoldsTheEncodedFields :
    exec (.hdrEncode .none) State.reset = .next { State.reset with hdrOut := 0x7801 } ∧ (0x7801 : HeaderWord) ≠ State.reset.hdrOut :=
  ⟨rfl, by decide⟩

theorem witness_HdrInHoldsTheReceivedFields :
    exec (.hdrDecode 0x78 0x9C) State.reset = .next { State.reset with hdrIn := 0x789C } ∧ (0x789C : HeaderWord) ≠ State.reset.hdrIn :=
  ⟨rfl, by decide⟩

theorem witness_EngineCommandsLeaveTheCodec :
    isEngine (.adlerUpdate1 0) = true ∧ exec (.adlerUpdate1 0) State.reset = .next (sums 1 1) := ⟨rfl, rfl⟩

theorem witness_CodecCommandsLeaveTheEngine :
    exec (.hdrEncode .none) State.reset = .next { State.reset with hdrOut := 0x7801 } ∧
    exec (.hdrDecode 0xFF 0xFF) State.reset = .next { State.reset with hdrIn := 0xFFFF, status := 0xF3 } := ⟨rfl, rfl⟩

theorem witness_EngineAndCodecAreIndependent :
    (sums 1 0).inputs = State.reset.inputs ∧ runSteps 1 (sums 1 0) = .next (sums 1 0) ∧ runSteps 1 State.reset = .next State.reset ∧
    (sums 1 0).s1 = State.reset.s1 ∧ (sums 1 0).s2 = State.reset.s2 ∧ (sums 1 0).hdrOut = State.reset.hdrOut ∧
    (sums 1 0).hdrIn = State.reset.hdrIn := ⟨rfl, rfl, rfl, rfl, rfl, rfl, rfl⟩

theorem witness_RepeatingACommandAtOnce :
    isIdempotent .adlerUpdate0 = true ∧ wordLegal 0x0100000001 = false ∧
    (1 ≤ [0x00#8].length ∧ [0x00#8].length ≤ 4) ∧ [0#8, 0, 0, 0].length ≤ 4 := by decide

theorem witness_EncodeOfDecode : decode 0x1100000061 = .ok (.adlerUpdate1 0x61) := by decide

theorem witness_IllegalWordsWriteOnlyStatus : IllegalWord 0x00 0 ∧ IllegalWord 0x11 0x100 := by
  simp [IllegalWord, reservedZeroBits]

theorem witness_LanesAreInStreamOrder : (3 : Nat) < 4 := by decide

theorem witness_AssemblerNeverTruncates :
    AsmCommand.wellFormed ⟨.adlerUpdate1, [0x100]⟩ = false ∧ AsmCommand.wellFormed ⟨.adlerUpdate1, [0xFF]⟩ = true := by decide

theorem witness_WireFormatIsBigEndian : (0 : Nat) < 4 ∧ (3 : Nat) < 4 := by decide

theorem witness_AdlerInitStartsAChecksum : (1 : Word) ≠ 0 := by decide

theorem witness_AdlerSeedStoresTheHalves :
    isUpdate .adlerUpdate0 = true ∧ isUpdate (.adlerUpdate4 0 0 0 0) = true ∧ (sums 0xFFFF 0xFFFF).Bounded :=
  ⟨rfl, rfl, by unfold State.Bounded; decide⟩

theorem witness_AdlerUpdateAbsorbsItsBytes :
    ((0xFF : Word) >>> 8 = 0 ∧ (0xFFFF : Word) >>> 16 = 0 ∧ (0xFFFFFF : Word) >>> 24 = 0) ∧
    ((0x1 : Word) ≠ 0 ∧ (0x100 : Word) >>> 8 ≠ 0 ∧ (0x10000 : Word) >>> 16 ≠ 0 ∧ (0x1000000 : Word) >>> 24 ≠ 0) ∧
    (sums 65520 65520).Reduced ∧ ((sums 0xFFFF 0xFFFF).s1 = 0xFFFF ∧ (sums 0xFFFF 0xFFFF).s2 = 0xFFFF) ∧
    (sums 65520 0).s1 = 65520 := by
  unfold State.Reduced; decide

theorem witness_AdlerUpdateClosedForm : ([] : Bytes).length ≤ 4 ∧ [0xFF#8, 0xFF, 0xFF, 0xFF].length ≤ 4 := by decide

theorem witness_ChunkingIsInvisible :
    ([[], [0x61#8, 0x62, 0x63, 0x64]] ≠ [] ∧ (∀ c ∈ [[], [0x61#8, 0x62, 0x63, 0x64]], c.length ≤ 4) ∧
      (driving (commandSamples ([[], [0x61#8, 0x62, 0x63, 0x64]].map updateCommand) ++ [initSample])).inputs =
        commandSamples ([[], [0x61#8, 0x62, 0x63, 0x64]].map updateCommand) ++ [initSample]) ∧
    ([[0x61#8], [0x62]] ≠ [] ∧ [[0x61#8, 0x62]] ≠ [] ∧ (∀ c ∈ [[0x61#8], [0x62]], c.length ≤ 4) ∧
      (∀ c ∈ [[0x61#8, 0x62]], c.length ≤ 4) ∧ [[0x61#8], [0x62]].flatten = [[0x61#8, 0x62]].flatten) := by decide

theorem witness_UpdateBytesIsTheSourceUpdate :
    [0x61#8, 0x62] ≠ [] ∧ (∀ c ∈ [[0x61#8], [0x62]], 1 ≤ c.length ∧ c.length ≤ 4) ∧ [[0x61#8], [0x62]].flatten = [0x61, 0x62] := by decide

theorem witness_EngineRaisesNoError :
    isEngine .adlerInit = true ∧ CommandWord.op 0x1100000157 ∈ [0x01#8, 0x02, 0x10, 0x11, 0x12, 0x13, 0x14] := by decide

theorem witness_NoOverflowInsideACommand :
    (sums 0xFFFF 0xFFFF).Bounded ∧ [0xFF#8, 0xFF, 0xFF, 0xFF].length ≤ 4 := by
  unfold State.Bounded; decide

theorem witness_ReductionScheduleIsUnobservable :
    [List.replicate 5552 0xFF#8, []] ≠ [] ∧ (∀ r ∈ [List.replicate 5552 0xFF#8, []], r.length ≤ 5552) ∧ (sums 0xFFFF 0xFFFF).Bounded := by
  refine ⟨List.cons_ne_nil _ _, ?_, by unfold State.Bounded; decide⟩
  intro r hr
  rcases List.mem_cons.1 hr with rfl | h
  · rw [List.length_replicate]
  · rw [List.mem_singleton.1 h]; decide

theorem witness_SharedPortChecksumsTheInterleaving :
    ((∀ c ∈ [[0x61#8]], c.length ≤ 4) ∧ (∀ c ∈ [[0x62#8]], c.length ≤ 4) ∧
      Interleaving [[0x61#8]] [[0x62#8]] [[0x62#8], [0x61]] ∧
      (driving ([0].map .command ++ commandSamples (.adlerInit :: [[0x62#8], [0x61]].map updateCommand) ++ [])).inputs =
        [0].map .command ++ commandSamples (.adlerInit :: [[0x62#8], [0x61]].map updateCommand) ++ []) ∧
    (Interleaving [0x0100000000#40] [0#40] [0#40, 0x0100000000] ∧
      (driving ([0#40, 0x0100000000].map .command)).inputs = [0#40, 0x0100000000].map .command) :=
  ⟨⟨by decide, by decide, .second (.first .nil), rfl⟩, .second (.first .nil), rfl⟩

theorem witness_HdrEncodeProducesTheHeader : (4 : Word) >>> 2 ≠ 0 := by decide

theorem witness_CheckDigitIsUnique :
    (0x78 : Nat) < 256 ∧ (0xC0 : Nat) < 256 ∧ 0xC0 % 32 = 0 ∧ (26 : Nat) ≤ 30 ∧ ((0x78 <<< 8) ||| 0xC0 ||| 26) % 31 = 0 := by decide

theorem witness_HdrDecodeValidatesInOrder : (0x10000 : Word) >>> 16 ≠ 0 := by decide

theorem witness_HdrDecodePrecedence :
    (0x77#8).toNat % 16 ≠ 8 ∧ ((0x88#8).toNat % 16 = 8 ∧ 7 < (0x88#8).toNat / 16) ∧
    ((0x78#8).toNat % 16 = 8 ∧ (0x78#8).toNat / 16 ≤ 7 ∧ ((0x78#8).toNat * 256 + (0x21#8).toNat) % 31 ≠ 0) := by decide

theorem witness_ValidHeadersAreThese32 :
    ((7 : Nat) < 8 ∧ (3 : Nat) < 4 ∧ (31 : Nat) < 32) ∧ decodeCode 0x78 0xDA = 0x0 := by decide

theorem witness_BlockWritesOnlyItsStatusCodes :
    (acceptWord 0x210000FFFF State.reset = .next { State.reset with hdrIn := 0xFFFF, status := 0xF3 }) ∧
    (acceptWord 0x2100008878 State.reset = .next { State.reset with hdrIn := 0x8878, status := 0x84 }) ∧
    (acceptWord 0x2100007800 State.reset = .next { State.reset with hdrIn := 0x7800, status := 0x05 }) := ⟨rfl, rfl, rfl⟩

theorem witness_EnvUnwrapSlicesThePayload :
    (1 ≤ [0#8].length ∧ [0#8, 0, 0, 0, 0].length < 6) ∧
    ([0#8, 0, 0, 1].length = 4 ∧ [0x78#8, 0x9C, 0, 0, 0, 1] = 0x78 :: 0x9C :: ([] ++ [0, 0, 0, 1])) ∧
    exec (.hdrDecode 0x78 0x9C) State.reset = .next { State.reset with hdrIn := 0x789C, status := 0x00 } ∧
    (exec (.hdrDecode 0x70 0x00) State.reset = .next { State.reset with hdrIn := 0x7000, status := 0x03 }) ∧
    (exec (.hdrDecode 0x88 0x00) State.reset = .next { State.reset with hdrIn := 0x8800, status := 0x84 }) ∧
    (exec (.hdrDecode 0x78 0x00) State.reset = .next { State.reset with hdrIn := 0x7800, status := 0x05 }) ∧
    (exec (.hdrDecode 0x78 0x20) State.reset = .next { State.reset with hdrIn := 0x7820, status := 0x06 }) :=
  ⟨by decide, by decide, rfl, rfl, rfl, rfl, rfl⟩

theorem witness_EnvDecompressErrorPrecedence :
    (1 ≤ [0x78#8].length ∧ [0x78#8, 0x9C, 0, 0, 0].length < 6) ∧
    (envUnwrap [0x78, 0x9C, 0x00] State.reset : SeqResult Unit Bytes) = .failed .tooShort State.reset := by decide

theorem witness_EnvelopeRoundTrip : storingCodec.Law := fun _ _ => rfl

theorem witness_TrailerIsChecked :
    envDecompress storingCodec [0x78, 0x9C, 0, 0, 0, 1] State.reset = .done [] { State.reset with hdrIn := 0x789C } ∧
    (3 : Nat) < 4 ∧ (0x00 : Byte) ≠ byteAt [0x78, 0x9C, 0, 0, 0, 1] ([0x78#8, 0x9C, 0, 0, 0, 1].length - 4 + 3) := by decide

theorem witness_AppendKeepsTheBuffer :
    (0 : Nat) < [0xAA#8].length ∧
    envDecompress storingCodec [0x78, 0x9C, 0, 0, 0, 1] State.reset = .done [] { State.reset with hdrIn := 0x789C } := by decide

theorem witness_SavingTheEngineAroundASequence :
    (sums 0xFFFF 0xFFFF).Bounded ∧
    envUnwrap (ε := Unit) [0x78, 0x9C, 0, 0, 0, 1] (sums 0xFFFF 0xFFFF) = .done [] { sums 0xFFFF 0xFFFF with hdrIn := 0x789C } ∧
    envUnwrap (ε := Unit) [] (sums 0xFFFF 0xFFFF) = .failed .empty (sums 0xFFFF 0xFFFF) := by
  unfold State.Bounded; decide

end Sys2Proof.Tests
end

section
/-! SUPPORT. The rules of the step's stages: what the port and the decoder hand on, and when two states stay related over a run. -/

namespace Sys2Proof.Machine

/-! ## One equation per case of the port and of the decoder -/

theorem step_of_inputs_nil {s : State} (h : s.inputs = []) : step s = .next s := by
  simp only [step, serveNext, h]

theorem step_of_inputs_cons {s : State} {p : PortSample} {rest : List PortSample} (h : s.inputs = p :: rest) :
    step s = servePorts p { s with inputs := rest } := by
  simp only [step, serveNext, h]

theorem servePorts_of_rst {p : PortSample} (h : p.rst = true) (s : State) : servePorts p s = .next s.resetRegisters := by
  simp only [servePorts, h, if_true]

theorem servePorts_of_command {p : PortSample} (hr : p.rst = false) (hv : p.cmdValid = true) (s : State) :
    servePorts p s = acceptWord p.cmdWord s := by
  simp only [servePorts, hr, hv, if_true, Bool.false_eq_true, if_false]

theorem servePorts_of_idle {p : PortSample} (hr : p.rst = false) (hv : p.cmdValid = false) (s : State) :
    servePorts p s = .next s := by
  simp only [servePorts, hr, hv, Bool.false_eq_true, if_false]

theorem acceptWord_of_ok {cw : CommandWord} {i : Instr} (h : decode cw = .ok i) (s : State) :
    acceptWord cw s = exec i s := by
  simp only [acceptWord, h]

theorem acceptWord_of_error {cw : CommandWord} {e : DecodeError} (h : decode cw = .error e) (s : State) :
    acceptWord cw s = .next s.illegalCommand := by
  simp only [acceptWord, h]

/-! ## Relations kept along two runs with the same schedule -/

/-- What a relation needs so that two machines driven alike keep it: each thing a sample can do keeps it, and the schedule has no
part in it. A predicate `P` is the relation `fun s _ => P s`. -/
structure KeptByBlock (R : State → State → Prop) : Prop where
  exec : ∀ {i : Instr} {s t s' t' : State}, R s t → exec i s = .next s' → exec i t = .next t' → R s' t'
  illegal : ∀ {s t : State}, R s t → R s.illegalCommand t.illegalCommand
  reset : ∀ s t : State, R s.resetRegisters t.resetRegisters
  inputs : ∀ {s t : State} (rest : List PortSample), R s t → R { s with inputs := rest } { t with inputs := rest }

section
variable {R : State → State → Prop} {s t s' t' : State}

theorem KeptByBlock.acceptWord (hR : KeptByBlock R) {cw : CommandWord} (h : R s t)
    (hs : acceptWord cw s = .next s') (ht : acceptWord cw t = .next t') : R s' t' := by
  cases hd : decode cw with
  | ok i =>
    rw [acceptWord_of_ok hd] at hs ht
    exact hR.exec h hs ht
  | error e =>
    rw [acceptWord_of_error hd] at hs ht
    cases hs; cases ht
    exact hR.illegal h

theorem KeptByBlock.servePorts (hR : KeptByBlock R) {p : PortSample} (h : R s t)
    (hs : servePorts p s = .next s') (ht : servePorts p t = .next t') : R s' t' := by
  cases hr : p.rst with
  | true =>
    rw [servePorts_of_rst hr] at hs ht
    cases hs; cases ht
    exact hR.reset s t
  | false =>
    cases hv : p.cmdValid with
    | true =>
      rw [servePorts_of_command hr hv] at hs ht
      exact hR.acceptWord h hs ht
    | false =>
      rw [servePorts_of_idle hr hv] at hs ht
      cases hs; cases ht
      exact h

theorem KeptByBlock.step (hR : KeptByBlock R) (hin : s.inputs = t.inputs) (h : R s t)
    (hs : step s = .next s') (ht : step t = .next t') : R s' t' := by
  cases hp : s.inputs with
  | nil =>
    rw [step_of_inputs_nil hp] at hs
    rw [step_of_inputs_nil (hin ▸ hp)] at ht
    cases hs; cases ht
    exact h
  | cons p rest =>
    rw [step_of_inputs_cons hp] at hs
    rw [step_of_inputs_cons (hin ▸ hp)] at ht
    exact hR.servePorts (hR.inputs rest h) hs ht

theorem KeptByBlock.run (hR : KeptByBlock R) (n : Nat) (hin : s.inputs = t.inputs) (h : R s t)
    (hs : runSteps n s = .next s') (ht : runSteps n t = .next t') : R s' t' := by
  induction n generalizing s t with
  | zero =>
    cases hs; cases ht
    exact h
  | succ n ih =>
    obtain ⟨s₁, es, hs₁⟩ := step_next s
    obtain ⟨t₁, et, ht₁⟩ := step_next t
    rw [runSteps_succ n es] at hs
    rw [runSteps_succ n et] at ht
    exact ih (by rw [hs₁, ht₁, hin]) (hR.step hin h es et) hs ht

/-- The case of one machine: a predicate that every kind of sample keeps is kept by a step. -/
theorem KeptByBlock.step_of_predicate {P : State → Prop} (hP : KeptByBlock fun s _ => P s) (h : P s)
    (hs : Machine.step s = .next s') : P s' :=
  hP.step rfl h hs hs

end

/-! ## A step without reset -/

/-- A step without reset writes the schedule alone, or performs the word it accepts. -/
theorem step_cases_of_not_rst {s t : State} (h : step s = .next t) (hr : s.port.rst = false) :
    t = { s with inputs := s.inputs.drop 1 } ∨
    ∃ cw, s.accepted = some cw ∧ acceptWord cw { s with inputs := s.inputs.drop 1 } = .next t := by
  cases hp : s.inputs with
  | nil =>
    rw [step_of_inputs_nil hp] at h
    cases h
    exact .inl (by rw [List.drop_nil, ← hp])
  | cons p rest =>
    have hport : s.port = p := by rw [State.port, hp, List.headD_cons]
    rw [hport] at hr
    rw [step_of_inputs_cons hp] at h
    cases hv : p.cmdValid with
    | true =>
      rw [servePorts_of_command hr hv] at h
      refine .inr ⟨p.cmdWord, ?_, h⟩
      simp only [State.accepted, PortSample.accepted, hport, hv, hr, Bool.not_false, Bool.and_true, if_true]
    | false =>
      rw [servePorts_of_idle hr hv] at h
      cases h
      exact .inl rfl

end Sys2Proof.Machine
end

section
/-! SUPPORT. What a command leaves in each register, and what it leaves unchanged (spec/10_state.md R22 to R28). -/

namespace Sys2Proof.Machine

/-! ## Numbers of the fields -/

theorem ofNat_extractLsb'_toNat (x : Word) (k : Nat) :
    (BitVec.ofNat 32 (x.extractLsb' k 16).toNat).toNat = x.toNat / 2 ^ k % 2 ^ 16 := by
  simp only [BitVec.toNat_ofNat, BitVec.extractLsb'_toNat, Nat.shiftRight_eq_div_pow]
  omega

theorem extractLsb'_high_eq_zero {x : Word} (h : x.toNat < 2 ^ 16) : x.extractLsb' 16 16 = 0 := by
  apply BitVec.eq_of_toNat_eq
  simp only [BitVec.extractLsb'_toNat, Nat.shiftRight_eq_div_pow, Nat.div_eq_of_lt h]
  rfl

theorem extractLsb'_toNat_header (h : HeaderWord) (start len : Nat) :
    (h.extractLsb' start len).toNat = h.toNat / 2 ^ start % 2 ^ len := by
  rw [BitVec.extractLsb'_toNat, Nat.shiftRight_eq_div_pow]

theorem State.Reduced.bounded {s : State} (h : s.Reduced) : s.Bounded := by
  obtain ⟨h1, h2⟩ := h
  exact ⟨by omega, by omega⟩

theorem value_congr {s t : State} (h1 : s.s1 = t.s1) (h2 : s.s2 = t.s2) : s.value = t.value := by
  rw [State.value, State.value, h1, h2]

/-! ## The checks of HDR_DECODE, one field each -/

section
variable (cmf flg : Byte) (s : State)

@[simp] theorem validateHeader_s1 : (s.validateHeader cmf flg).s1 = s.s1 := by
  obtain ⟨h, -⟩ := validateHeader_frame cmf flg s
  exact h
@[simp] theorem validateHeader_s2 : (s.validateHeader cmf flg).s2 = s.s2 := by
  obtain ⟨-, h, -⟩ := validateHeader_frame cmf flg s
  exact h
@[simp] theorem validateHeader_hdrOut : (s.validateHeader cmf flg).hdrOut = s.hdrOut := by
  obtain ⟨-, -, h, -⟩ := validateHeader_frame cmf flg s
  exact h
@[simp] theorem validateHeader_hdrIn : (s.validateHeader cmf flg).hdrIn = s.hdrIn := by
  obtain ⟨-, -, -, h, -⟩ := validateHeader_frame cmf flg s
  exact h

end

/-! ## The engine's registers -/

theorem isUpdate_updateCommand (c : Bytes) : isUpdate (updateCommand c) = true := by
  match c with
  | [] => rfl
  | [_] => rfl
  | [_, _] => rfl
  | [_, _, _] => rfl
  | _ :: _ :: _ :: _ :: _ => rfl

theorem isEngine_of_isUpdate {i : Instr} (h : isUpdate i = true) : isEngine i = true := by
  cases i <;> simp [isUpdate, isEngine] at h ⊢

/-- The three things a command can do to S1 and S2: leave them reduced, take the halves of a seed, or leave them unchanged. -/
theorem exec_sums {i : Instr} {s t : State} (h : exec i s = .next t) :
    ((i = .adlerInit ∨ isUpdate i = true) ∧ t.Reduced) ∨
    (∃ seed, i = .adlerSeed seed ∧ t.s1.toNat = seed.toNat % 2 ^ 16 ∧ t.s2.toNat = seed.toNat / 2 ^ 16) ∨
    (isEngine i = false ∧ t.s1 = s.s1 ∧ t.s2 = s.s2) := by
  rcases exec_cases i s with ⟨rfl, e⟩ | ⟨seed, rfl, e⟩ | ⟨c, -, rfl, e⟩ | ⟨level, rfl, e⟩ | ⟨cmf, flg, rfl, e⟩ <;>
    (rw [e] at h; cases h)
  · exact .inl ⟨.inl rfl, by simp [State.Reduced]⟩
  · have := seed.isLt
    refine .inr (.inl ⟨seed, rfl, ?_, ?_⟩)
    · simp only [State.complete_s1, State.setSums_s1, ofNat_extractLsb'_toNat, pow_zero, Nat.div_one]
    · simp only [State.complete_s2, State.setSums_s2, ofNat_extractLsb'_toNat]
      omega
  · exact .inl ⟨.inr (isUpdate_updateCommand c), absorb_le s c⟩
  · exact .inr (.inr ⟨rfl, rfl, rfl⟩)
  · exact .inr (.inr ⟨rfl, by simp, by simp⟩)

theorem isEngine_or_sums_eq {i : Instr} {s t : State} (h : exec i s = .next t) :
    isEngine i = true ∨ t.s1 = s.s1 ∧ t.s2 = s.s2 := by
  rcases exec_sums h with ⟨rfl | hu, -⟩ | ⟨seed, rfl, -⟩ | ⟨-, heq⟩
  · exact .inl rfl
  · exact .inl (isEngine_of_isUpdate hu)
  · exact .inl rfl
  · exact .inr heq

theorem exec_bounded {i : Instr} {s t : State} (hs : s.Bounded) (h : exec i s = .next t) : t.Bounded := by
  rcases exec_sums h with ⟨-, hred⟩ | ⟨seed, -, h1, h2⟩ | ⟨-, h1, h2⟩
  · exact hred.bounded
  · have := seed.isLt
    exact ⟨by omega, by omega⟩
  · rwa [State.Bounded, h1, h2]

theorem resetRegisters_bounded (s : State) : s.resetRegisters.Bounded := by
  simp [State.Bounded]

/-- The bounds of R22 do not depend on what the host drives. -/
theorem bounded_keptByBlock : KeptByBlock fun s _ => s.Bounded where
  exec hs h _ := exec_bounded hs h
  illegal hs := hs
  reset s _ := resetRegisters_bounded s
  inputs _ hs := hs

/-! ## The codec's registers -/

theorem exec_hdrOut {i : Instr} {s t : State} (h : exec i s = .next t) :
    t.hdrOut = s.hdrOut ∨ ∃ level, i = .hdrEncode level ∧ t.hdrOut = encodedHeader level := by
  rcases exec_cases i s with ⟨rfl, e⟩ | ⟨seed, rfl, e⟩ | ⟨c, -, rfl, e⟩ | ⟨level, rfl, e⟩ | ⟨cmf, flg, rfl, e⟩ <;>
    (rw [e] at h; cases h)
  · exact .inl rfl
  · exact .inl rfl
  · exact .inl rfl
  · exact .inr ⟨level, rfl, rfl⟩
  · exact .inl (by simp)

theorem exec_hdrIn {i : Instr} {s t : State} (h : exec i s = .next t) :
    t.hdrIn = s.hdrIn ∨ ∃ cmf flg, i = .hdrDecode cmf flg ∧ t.hdrIn = be16 cmf flg := by
  rcases exec_cases i s with ⟨rfl, e⟩ | ⟨seed, rfl, e⟩ | ⟨c, -, rfl, e⟩ | ⟨level, rfl, e⟩ | ⟨cmf, flg, rfl, e⟩ <;>
    (rw [e] at h; cases h)
  · exact .inl rfl
  · exact .inl rfl
  · exact .inl rfl
  · exact .inl rfl
  · exact .inr ⟨cmf, flg, rfl, by simp⟩

theorem exec_inputs {i : Instr} {s t : State} (h : exec i s = .next t) : t.inputs = s.inputs := by
  obtain ⟨u, hu, hin⟩ := exec_next i s
  rw [hu] at h
  cases h
  exact hin

theorem hdrEncode_of_hdrOut_ne {i : Instr} {s t : State} (h : exec i s = .next t) (hne : t.hdrOut ≠ s.hdrOut) :
    ∃ level, i = .hdrEncode level := by
  rcases exec_hdrOut h with heq | ⟨level, rfl, -⟩
  · exact absurd heq hne
  · exact ⟨level, rfl⟩

theorem hdrDecode_of_hdrIn_ne {i : Instr} {s t : State} (h : exec i s = .next t) (hne : t.hdrIn ≠ s.hdrIn) :
    ∃ cmf flg, i = .hdrDecode cmf flg := by
  rcases exec_hdrIn h with heq | ⟨cmf, flg, rfl, -⟩
  · exact absurd heq hne
  · exact ⟨cmf, flg, rfl⟩

/-! ## Header values -/

theorem hdrOutLegal_encodedHeader (level : Level) : hdrOutLegal (encodedHeader level) := by
  unfold hdrOutLegal
  cases level <;> decide

theorem encodedHeader_fields (level : Level) :
    (encodedHeader level).extractLsb' 8 8 = 0x78#8 ∧ headerCM (encodedHeader level) = 8 ∧
    headerCINFO (encodedHeader level) = 7 ∧ headerFDICT (encodedHeader level) = 0 ∧
    headerFLEVEL (encodedHeader level) = level.code ∧
    (headerFCHECK (encodedHeader level)).toNat = checkDigit 0x78 (level.code.toNat * 64) := by
  cases level <;> decide

theorem be16_high (cmf flg : Byte) : (be16 cmf flg).extractLsb' 8 8 = cmf := by
  have := flg.isLt
  apply BitVec.eq_of_toNat_eq
  rw [extractLsb'_toNat_header, be16_toNat]
  omega

theorem be16_low (cmf flg : Byte) : (be16 cmf flg).extractLsb' 0 8 = flg := by
  apply BitVec.eq_of_toNat_eq
  rw [extractLsb'_toNat_header, be16_toNat]
  omega

/-- The views of a received header as the source's divisions of its two bytes (R25). -/
theorem be16_fields (cmf flg : Byte) :
    (headerCM (be16 cmf flg)).toNat = cmf.toNat % 16 ∧ (headerCINFO (be16 cmf flg)).toNat = cmf.toNat / 16 ∧
    (headerFCHECK (be16 cmf flg)).toNat = flg.toNat % 32 ∧ (headerFDICT (be16 cmf flg)).toNat = flg.toNat / 32 % 2 ∧
    (headerFLEVEL (be16 cmf flg)).toNat = flg.toNat / 64 := by
  have := cmf.isLt
  have := flg.isLt
  simp only [headerCM, headerCINFO, headerFCHECK, headerFDICT, headerFLEVEL, extractLsb'_toNat_header, be16_toNat]
  omega

/-! ## STATUS -/

/-- STATUS is a value the block can write (R201, R202). -/
def State.StatusLegal (s : State) : Prop := statusLegal s.statusCode s.statusInfo = true

theorem statusLegal_raise (k : StatusKind) (info : BitVec 4) (s : State) :
    (s.raise k info).StatusLegal ↔ infoLegal k info = true := by
  simp only [State.StatusLegal, State.statusCode, State.statusInfo, State.raise_status, code_statusWord, info_statusWord,
    statusLegal, ofCode_code_kind]

theorem statusLegal_complete (s : State) : s.complete.StatusLegal := (statusLegal_raise .ok 0 s).2 rfl

theorem statusLegal_illegalCommand (s : State) : s.illegalCommand.StatusLegal :=
  (statusLegal_raise .illegalCommand 0 s).2 rfl

/-- The payloads of the failed checks are legal because of the check that failed (R136, R137). -/
theorem statusLegal_validateHeader (cmf flg : Byte) (s : State) : (s.validateHeader cmf flg).StatusLegal := by
  rcases validateHeader_cases cmf flg s with ⟨hcm, e⟩ | ⟨-, hcinfo, e⟩ | ⟨-, -, -, e⟩ | ⟨-, -, -, -, e⟩ | ⟨-, -, -, -, e⟩ <;>
    rw [e]
  · exact (statusLegal_raise _ _ s).2 (bne_iff_ne.2 hcm)
  · exact (statusLegal_raise _ _ s).2 (decide_eq_true hcinfo)
  · exact (statusLegal_raise _ _ s).2 rfl
  · exact (statusLegal_raise _ _ s).2 rfl
  · exact statusLegal_complete s

/-- What a command leaves in STATUS is legal whatever STATUS was. -/
theorem exec_statusLegal {i : Instr} {s t : State} (h : exec i s = .next t) : t.StatusLegal := by
  rcases exec_cases i s with ⟨rfl, e⟩ | ⟨seed, rfl, e⟩ | ⟨c, -, rfl, e⟩ | ⟨level, rfl, e⟩ | ⟨cmf, flg, rfl, e⟩ <;>
    (rw [e] at h; cases h)
  · exact statusLegal_complete _
  · exact statusLegal_complete _
  · exact statusLegal_complete _
  · exact statusLegal_complete _
  · exact statusLegal_validateHeader cmf flg _

theorem exec_withStatus (i : Instr) (s : State) (status : BitVec 8) : exec i { s with status := status } = exec i s := by
  cases i <;> rfl

/-! ## The block's invariant -/

theorem exec_inv {i : Instr} {s t : State} (hs : s.Inv) (h : exec i s = .next t) : t.Inv := by
  obtain ⟨hbounded, -, hout⟩ := hs
  refine ⟨exec_bounded hbounded h, exec_statusLegal h, ?_⟩
  rcases exec_hdrOut h with heq | ⟨level, -, heq⟩
  · rwa [heq]
  · rw [heq]
    exact hdrOutLegal_encodedHeader level

theorem resetRegisters_inv (s : State) : s.resetRegisters.Inv :=
  ⟨resetRegisters_bounded s, statusLegal_complete s.resetRegisters, .inl rfl⟩

theorem illegalCommand_inv {s : State} (hs : s.Inv) : s.illegalCommand.Inv := by
  obtain ⟨hbounded, -, hout⟩ := hs
  exact ⟨hbounded, statusLegal_illegalCommand s, hout⟩

theorem inv_keptByBlock : KeptByBlock fun s _ => s.Inv where
  exec hs h _ := exec_inv hs h
  illegal := illegalCommand_inv
  reset s _ := resetRegisters_inv s
  inputs _ hs := hs

/-! ## Engine and codec side by side -/

/-- Two states with the same engine registers. -/
def SameEngine (s t : State) : Prop := s.s1 = t.s1 ∧ s.s2 = t.s2

/-- Two states with the same codec registers, STATUS apart. -/
def SameCodec (s t : State) : Prop := s.hdrOut = t.hdrOut ∧ s.hdrIn = t.hdrIn

theorem SameEngine.absorb {s t : State} (h : SameEngine s t) (c : Bytes) : SameEngine (s.absorb c) (t.absorb c) := by
  obtain ⟨h1, h2⟩ := h
  refine ⟨BitVec.eq_of_toNat_eq ?_, BitVec.eq_of_toNat_eq ?_⟩
  · rw [absorb_s1, absorb_s1, h1]
  · rw [absorb_s2, absorb_s2, h1, h2]

theorem sameEngine_keptByBlock : KeptByBlock SameEngine where
  exec {i s t s' t'} h hs ht := by
    rcases exec_cases i s with ⟨rfl, -⟩ | ⟨seed, rfl, -⟩ | ⟨c, hc, rfl, -⟩ | ⟨level, rfl, -⟩ | ⟨cmf, flg, rfl, -⟩
    · cases hs; cases ht
      exact ⟨rfl, rfl⟩
    · cases hs; cases ht
      exact ⟨rfl, rfl⟩
    · rw [exec_updateCommand c hc] at hs ht
      cases hs; cases ht
      exact h.absorb c
    · cases hs; cases ht
      exact h
    · cases hs; cases ht
      simpa [SameEngine] using h
  illegal h := h
  reset _ _ := ⟨rfl, rfl⟩
  inputs _ h := h

theorem sameCodec_keptByBlock : KeptByBlock SameCodec where
  exec {i s t s' t'} h hs ht := by
    rcases exec_cases i s with ⟨rfl, -⟩ | ⟨seed, rfl, -⟩ | ⟨c, hc, rfl, -⟩ | ⟨level, rfl, -⟩ | ⟨cmf, flg, rfl, -⟩
    · cases hs; cases ht
      exact h
    · cases hs; cases ht
      exact h
    · rw [exec_updateCommand c hc] at hs ht
      cases hs; cases ht
      exact h
    · cases hs; cases ht
      exact ⟨rfl, h.2⟩
    · cases hs; cases ht
      simpa [SameCodec] using h.1
  illegal h := h
  reset _ _ := ⟨rfl, rfl⟩
  inputs _ h := h

end Sys2Proof.Machine
end

section
/-! SUPPORT. The statements about the state (spec/10_state.md R22 to R32) settled. -/

namespace Sys2Proof.Machine

/-- Settles O8: the reset state is what the reset operation leaves. -/
theorem blockInvariantAtReset : Obligations.BlockInvariantAtReset :=
  resetRegisters_inv State.reset

/-- Settles O9: every kind of sample keeps the invariant. -/
theorem stepKeepsBlockInvariant : Obligations.StepKeepsBlockInvariant :=
  fun _ _ hs h => inv_keptByBlock.step_of_predicate hs h

/-- Settles O10, from the three things a command can do to the sums. -/
theorem sumsStayBounded : Obligations.SumsStayBounded := by
  refine ⟨resetRegisters_bounded State.reset, ?_, ?_, ?_⟩
  · intro s t hs h
    have ht : t.Bounded := bounded_keptByBlock.step_of_predicate hs h
    have ⟨h1, h2⟩ := ht
    exact ⟨ht, extractLsb'_high_eq_zero h1, extractLsb'_high_eq_zero h2⟩
  · intro i s hi
    obtain ⟨t, h, -⟩ := exec_next i s
    refine ⟨t, h, ?_⟩
    rcases exec_sums h with ⟨-, hred⟩ | ⟨seed, rfl, -⟩ | ⟨hcodec, -⟩
    · exact hred
    · simp [isUpdate] at hi
    · rcases hi with rfl | hu
      · simp [isEngine] at hcodec
      · simp [isEngine_of_isUpdate hu] at hcodec
  · intro i s t h hs
    rcases exec_sums h with ⟨-, hred⟩ | ⟨seed, rfl, h1, h2⟩ | ⟨-, h1, h2⟩
    · exact .inl hred
    · by_cases hhalf : 65521 ≤ seed.toNat % 2 ^ 16 ∨ 65521 ≤ seed.toNat / 2 ^ 16
      · exact .inr ⟨seed, rfl, hhalf⟩
      · exact .inl ⟨by omega, by omega⟩
    · exact .inl (by rwa [State.Reduced, h1, h2])

/-- Settles O11: in a bounded state the two remainders are the sums themselves. -/
theorem valueIsBothSums : Obligations.ValueIsBothSums := by
  intro s
  refine ⟨value_toNat s, rfl, fun hs => ?_⟩
  obtain ⟨h1, h2⟩ := hs
  rw [value_toNat, Nat.mod_eq_of_lt h1, Nat.mod_eq_of_lt h2]

/-- Settles O12: the halves of a bounded state's VALUE are its sums. -/
theorem saveAndRestoreIsExact : Obligations.SaveAndRestoreIsExact := by
  intro s t hs
  obtain ⟨u, h, -⟩ := exec_next (.adlerSeed s.value) t
  obtain ⟨hb1, hb2⟩ := hs
  have hv := value_toNat s
  rcases exec_sums h with ⟨hi, -⟩ | ⟨seed, hi, h1, h2⟩ | ⟨hi, -⟩
  · simp [isUpdate] at hi
  · cases hi
    have e1 : u.s1 = s.s1 := BitVec.eq_of_toNat_eq (by omega)
    have e2 : u.s2 = s.s2 := BitVec.eq_of_toNat_eq (by omega)
    exact ⟨u, h, e1, e2, value_congr e1 e2⟩
  · simp [isEngine] at hi

/-- Settles O13: a step without reset that changes a register performs an accepted word, and each register has its commands. -/
theorem onlyItsCommandsWriteARegister : Obligations.OnlyItsCommandsWriteARegister := by
  intro s t h hr
  rcases step_cases_of_not_rst h hr with rfl | ⟨cw, hacc, h⟩
  · simp
  · cases hd : decode cw with
    | error e =>
      rw [acceptWord_of_error hd] at h
      cases h
      simp [hacc]
    | ok i =>
      rw [acceptWord_of_ok hd] at h
      refine ⟨fun hne => ⟨cw, i, hacc, hd, ?_⟩, fun hne => ?_, fun hne => ?_, fun _ => ⟨cw, hacc⟩⟩
      · exact (isEngine_or_sums_eq h).resolve_right (by rwa [not_and_or])
      · obtain ⟨level, rfl⟩ := hdrEncode_of_hdrOut_ne h hne
        exact ⟨cw, level, hacc, hd⟩
      · obtain ⟨cmf, flg, rfl⟩ := hdrDecode_of_hdrIn_ne h hne
        exact ⟨cw, cmf, flg, hacc, hd⟩

/-- Settles O14, command by command. -/
theorem noCommandReadsStatus : Obligations.NoCommandReadsStatus := by
  refine ⟨exec_withStatus, fun cw s status => ?_⟩
  cases hd : decode cw with
  | ok i => rw [acceptWord_of_ok hd, acceptWord_of_ok hd, exec_withStatus]
  | error e =>
    rw [acceptWord_of_error hd, acceptWord_of_error hd]
    rfl

/-- Settles O15: the four encoder outputs have the rule's fields. -/
theorem hdrOutHoldsTheEncodedFields : Obligations.HdrOutHoldsTheEncodedFields :=
  ⟨fun level _ => ⟨_, rfl, encodedHeader_fields level⟩, fun _ _ _ h hne => hdrEncode_of_hdrOut_ne h hne,
    fun _ => ⟨rfl, rfl, rfl, rfl, rfl⟩⟩

/-- Settles O16: the checks that follow the latch leave HDR_IN as it is. -/
theorem hdrInHoldsTheReceivedFields : Obligations.HdrInHoldsTheReceivedFields := by
  refine ⟨fun cmf flg s => ⟨_, rfl, ?_⟩, fun _ _ _ h hne => hdrDecode_of_hdrIn_ne h hne⟩
  rw [validateHeader_hdrIn, State.setHdrIn_hdrIn]
  exact ⟨be16_high cmf flg, be16_low cmf flg, be16_fields cmf flg⟩

/-- Settles O17: a command that writes a header register is none of the engine's. -/
theorem engineCommandsLeaveTheCodec : Obligations.EngineCommandsLeaveTheCodec := by
  intro i s t hi h
  refine ⟨?_, ?_, exec_inputs h⟩
  · by_contra hne
    obtain ⟨level, rfl⟩ := hdrEncode_of_hdrOut_ne h hne
    simp [isEngine] at hi
  · by_contra hne
    obtain ⟨cmf, flg, rfl⟩ := hdrDecode_of_hdrIn_ne h hne
    simp [isEngine] at hi

/-- Settles O18: neither command of the codec is one of the engine's, and neither writes the other's register. -/
theorem codecCommandsLeaveTheEngine : Obligations.CodecCommandsLeaveTheEngine := by
  constructor
  · intro level s t h
    obtain ⟨h1, h2⟩ := (isEngine_or_sums_eq h).resolve_left (by simp [isEngine])
    have hin := (exec_hdrIn h).resolve_right (by simp)
    exact ⟨h1, h2, hin, exec_inputs h⟩
  · intro cmf flg s t h
    obtain ⟨h1, h2⟩ := (isEngine_or_sums_eq h).resolve_left (by simp [isEngine])
    have hout := (exec_hdrOut h).resolve_right (by simp)
    exact ⟨h1, h2, hout, exec_inputs h⟩

/-- Settles O19: agreement on either unit's registers is kept along two runs with one schedule. -/
theorem engineAndCodecAreIndependent : Obligations.EngineAndCodecAreIndependent :=
  fun n _ _ _ _ hin hs ht =>
    ⟨fun h1 h2 => sameEngine_keptByBlock.run n hin ⟨h1, h2⟩ hs ht,
      fun hout hlatch => sameCodec_keptByBlock.run n hin ⟨hout, hlatch⟩ hs ht⟩

end Sys2Proof.Machine
end

section
/-! SUPPORT. The host's later samples, repetition and byte order as rules of their own (spec/20_memory.md R41 to R49). -/

namespace Sys2Proof.Machine

@[simp] theorem validateHeader_inputs (cmf flg : Byte) (s : State) : (s.validateHeader cmf flg).inputs = s.inputs := by
  obtain ⟨-, -, -, -, h⟩ := validateHeader_frame cmf flg s
  exact h

/-! ## What follows a sample in the schedule -/

/-- From the registers of `s`, `f` answers registers that do not depend on what the host drives next, and leaves that as it is. -/
def IgnoresInputs (f : State → Host.Outcome State Fault Refusal) (s : State) : Prop :=
  ∃ t : State, ∀ ys : List PortSample, f { s with inputs := ys } = .next { t with inputs := ys }

theorem validateHeader_withInputs (cmf flg : Byte) (s : State) (ys : List PortSample) :
    State.validateHeader cmf flg { s with inputs := ys } = { s.validateHeader cmf flg with inputs := ys } := by
  unfold State.validateHeader
  split_ifs <;> rfl

theorem exec_ignoresInputs (i : Instr) (s : State) : IgnoresInputs (exec i) s := by
  rcases exec_cases i s with ⟨rfl, -⟩ | ⟨seed, rfl, -⟩ | ⟨c, hc, rfl, -⟩ | ⟨level, rfl, -⟩ | ⟨cmf, flg, rfl, -⟩
  · exact ⟨(s.setSums 1 0).complete, fun _ => rfl⟩
  · exact ⟨(s.setSums (seed.extractLsb' 0 16).toNat (seed.extractLsb' 16 16).toNat).complete, fun _ => rfl⟩
  · exact ⟨s.absorb c, fun _ => exec_updateCommand c hc _⟩
  · exact ⟨(s.setHdrOut (encodedHeader level)).complete, fun _ => rfl⟩
  · exact ⟨(s.setHdrIn (be16 cmf flg)).validateHeader cmf flg,
      fun ys => congrArg Host.Outcome.next (validateHeader_withInputs cmf flg (s.setHdrIn (be16 cmf flg)) ys)⟩

theorem acceptWord_ignoresInputs (cw : CommandWord) (s : State) : IgnoresInputs (acceptWord cw) s := by
  cases hd : decode cw with
  | ok i =>
    obtain ⟨t, ht⟩ := exec_ignoresInputs i s
    exact ⟨t, fun ys => by rw [acceptWord_of_ok hd, ht]⟩
  | error e => exact ⟨s.illegalCommand, fun _ => acceptWord_of_error hd _⟩

theorem servePorts_ignoresInputs (p : PortSample) (s : State) : IgnoresInputs (servePorts p) s := by
  cases hr : p.rst with
  | true => exact ⟨s.resetRegisters, fun _ => servePorts_of_rst hr _⟩
  | false =>
    cases hv : p.cmdValid with
    | true =>
      obtain ⟨t, ht⟩ := acceptWord_ignoresInputs p.cmdWord s
      exact ⟨t, fun ys => by rw [servePorts_of_command hr hv, ht]⟩
    | false => exact ⟨s, fun _ => servePorts_of_idle hr hv _⟩

/-- The run of a schedule's first samples, whatever follows them and however far the run goes on. -/
theorem runSteps_append (xs : List PortSample) (s : State) : ∃ t : State, ∀ (ys : List PortSample) (n : Nat),
    runSteps (xs.length + n) { s with inputs := xs ++ ys } = runSteps n { t with inputs := ys } := by
  induction xs generalizing s with
  | nil => exact ⟨s, fun ys n => by rw [List.length_nil, Nat.zero_add, List.nil_append]⟩
  | cons p xs ih =>
    obtain ⟨u, hu⟩ := servePorts_ignoresInputs p s
    obtain ⟨t, ht⟩ := ih u
    refine ⟨t, fun ys n => ?_⟩
    have hstep : step { s with inputs := p :: (xs ++ ys) } = .next { u with inputs := xs ++ ys } := hu (xs ++ ys)
    rw [List.length_cons, Nat.succ_add, List.cons_append, runSteps_succ _ hstep, ht]

/-! ## Repeating a command -/

theorem eq_nil_of_isIdempotent_updateCommand {c : Bytes} (h : isIdempotent (updateCommand c) = true) : c = [] := by
  match c with
  | [] => rfl
  | [_] | [_, _] | [_, _, _] | _ :: _ :: _ :: _ :: _ => simp [updateCommand, isIdempotent] at h

theorem validateHeader_eq_withStatus (cmf flg : Byte) (s : State) :
    s.validateHeader cmf flg = { s with status := (s.validateHeader cmf flg).status } :=
  State.eq_of_fields (by simp) (by simp) (by simp) (by simp) rfl (by simp)

/-- A second HDR_DECODE finds HDR_IN as it latches it, and does not read the STATUS the first one left. -/
theorem exec_hdrDecode_validateHeader (cmf flg : Byte) (s : State) :
    exec (.hdrDecode cmf flg) ((s.setHdrIn (be16 cmf flg)).validateHeader cmf flg) = exec (.hdrDecode cmf flg) s := by
  rw [validateHeader_eq_withStatus, exec_withStatus]
  rfl

theorem byteSum_le (x : Bytes) : byteSum x ≤ 255 * x.length := by
  induction x with
  | nil => exact Nat.le_refl 0
  | cons b rest ih =>
    have := b.isLt
    rw [byteSum_cons, List.length_cons]
    omega

/-- Each byte is counted at most once for each byte of the sequence. -/
theorem weightedSum_le (x : Bytes) : weightedSum x ≤ x.length * byteSum x := by
  induction x with
  | nil => exact Nat.le_refl 0
  | cons b rest ih =>
    rw [weightedSum_cons, byteSum_cons, List.length_cons]
    linarith

/-- From S1 = 1 and S2 = 0, four bytes twice cannot bring S2 as far as the modulus, and each byte adds at least 1 to it. -/
theorem absorb_twice_ne (c : Bytes) (h1 : 1 ≤ c.length) (h4 : c.length ≤ 4) :
    (State.reset.absorb c).absorb c ≠ State.reset.absorb c := by
  intro h
  have hs2 : ((State.reset.absorb c).absorb c).s2.toNat = (State.reset.absorb c).s2.toNat := by rw [h]
  have hbyte := byteSum_le c
  have hweighted := weightedSum_le c
  have hprod : c.length * byteSum c ≤ 4 * (255 * 4) := Nat.mul_le_mul h4 (by omega)
  rw [absorb_absorb, absorb_s2, absorb_s2, weightedSum_append, List.length_append,
    show State.reset.s1.toNat = 1 from rfl, show State.reset.s2.toNat = 0 from rfl] at hs2
  omega

/-! ## Legal words and the table -/

theorem commandWord_and (op op' : BitVec 8) (arg arg' : Word) :
    commandWord op arg &&& commandWord op' arg' = commandWord (op &&& op') (arg &&& arg') :=
  BitVec.and_append

/-- A word is legal whose operand has none of the bits that its opcode's row fixes at 0. -/
theorem wordLegal_of_row (m : Mnemonic) {op : BitVec 8} {arg : Word} (mask : Word)
    (hrow : ⟨m, commandWord op 0, commandWord 0xFF mask⟩ ∈ opcodeTable) (h : arg &&& mask = 0) :
    wordLegal (commandWord op arg) = true := by
  have hop : op &&& 0xFF = op := BitVec.and_allOnes
  exact List.any_eq_true.2 ⟨_, hrow, beq_iff_eq.2 (by rw [commandWord_and, hop, h])⟩

theorem requireZero_eq_ok_iff {op : BitVec 8} {arg : Word} {lo : Nat} {i j : Instr} :
    requireZero op arg lo i = .ok j ↔ arg >>> lo = 0 ∧ i = j := by
  unfold requireZero
  split_ifs with h
  · rw [Except.ok.injEq, and_iff_right h]
  · exact ⟨nofun, fun ⟨hshift, _⟩ => absurd hshift h⟩

/-- A shift that leaves nothing of the operand leaves none of the bits of a mask above it. -/
theorem and_eq_zero_of_requireZero {op : BitVec 8} {arg : Word} {lo : Nat} {i j : Instr} {mask : Word}
    (h : requireZero op arg lo i = .ok j) (hmask : mask <<< (32 - lo) = 0) (hlo : lo ≤ 32) : arg &&& mask = 0 := by
  obtain ⟨hshift, -⟩ := requireZero_eq_ok_iff.1 h
  exact Laws.Fields.and_high_eq_zero arg mask lo hshift hmask hlo

/-- Every word the decoder takes is in the opcode table, row by row. -/
theorem wordLegal_of_decode {cw : CommandWord} {i : Instr} (h : decode cw = .ok i) : wordLegal cw = true := by
  rw [← commandWord_op_arg cw] at h ⊢
  rw [decode_commandWord] at h
  unfold decodeFields at h
  generalize cw.op = op at h ⊢
  split_ifs at h <;> subst op
  · exact wordLegal_of_row .adlerInit 0xFFFFFFFF (by decide) (and_eq_zero_of_requireZero h (by decide) (by decide))
  · exact wordLegal_of_row .adlerSeed 0 (by decide) BitVec.and_zero
  · exact wordLegal_of_row .adlerUpdate0 0xFFFFFFFF (by decide) (and_eq_zero_of_requireZero h (by decide) (by decide))
  · exact wordLegal_of_row .adlerUpdate1 0xFFFFFF00 (by decide) (and_eq_zero_of_requireZero h (by decide) (by decide))
  · exact wordLegal_of_row .adlerUpdate2 0xFFFF0000 (by decide) (and_eq_zero_of_requireZero h (by decide) (by decide))
  · exact wordLegal_of_row .adlerUpdate3 0xFF000000 (by decide) (and_eq_zero_of_requireZero h (by decide) (by decide))
  · exact wordLegal_of_row .adlerUpdate4 0 (by decide) BitVec.and_zero
  · exact wordLegal_of_row .hdrEncode 0xFFFFFFFC (by decide) (and_eq_zero_of_requireZero h (by decide) (by decide))
  · exact wordLegal_of_row .hdrDecode 0xFFFF0000 (by decide) (and_eq_zero_of_requireZero h (by decide) (by decide))

theorem decode_error_of_illegal {cw : CommandWord} (h : wordLegal cw = false) : ∃ e, decode cw = .error e := by
  cases hd : decode cw with
  | ok i => rw [wordLegal_of_decode hd] at h; cases h
  | error e => exact ⟨e, rfl⟩

/-! ## Byte order -/

theorem decode_encode_adlerUpdate1 (x0 : Byte) :
    decode (encode (.adlerUpdate1 x0)) = .ok (.adlerUpdate1 x0) := by
  rw [encode, decode_commandWord]
  exact requireZero_eq_ok_iff.2 ⟨packLanes_shift8 x0, by rw [Instr.operand, lane0_packLanes]⟩

theorem decode_encode_adlerUpdate2 (x0 x1 : Byte) :
    decode (encode (.adlerUpdate2 x0 x1)) = .ok (.adlerUpdate2 x0 x1) := by
  rw [encode, decode_commandWord]
  exact requireZero_eq_ok_iff.2 ⟨packLanes_shift16 x0 x1, by rw [Instr.operand, lane0_packLanes, lane1_packLanes]⟩

theorem decode_encode_adlerUpdate3 (x0 x1 x2 : Byte) :
    decode (encode (.adlerUpdate3 x0 x1 x2)) = .ok (.adlerUpdate3 x0 x1 x2) := by
  rw [encode, decode_commandWord]
  exact requireZero_eq_ok_iff.2 ⟨packLanes_shift24 x0 x1 x2, by
    rw [Instr.operand, lane0_packLanes, lane1_packLanes, lane2_packLanes]⟩

theorem decode_encode_adlerUpdate4 (x0 x1 x2 x3 : Byte) :
    decode (encode (.adlerUpdate4 x0 x1 x2 x3)) = .ok (.adlerUpdate4 x0 x1 x2 x3) := by
  rw [encode, decode_commandWord]
  exact congrArg Except.ok (by rw [Instr.operand, lane0_packLanes, lane1_packLanes, lane2_packLanes, lane3_packLanes])

theorem headerBytes_be16 (cmf flg : Byte) : headerBytes (be16 cmf flg) = [cmf, flg] := by
  rw [headerBytes, be16_high, be16_low]

/-- Big-endian is the lanes from the last to the first. -/
theorem be32_eq_packLanes (a b c d : Byte) : be32 a b c d = packLanes d c b a := by
  have happend : be32 a b c d = (a ++ b ++ c ++ d).setWidth 32 :=
    (BitVec.setWidth_append_append_append_eq_shiftLeft_setWidth_or (b := a) (b' := b) (b'' := c) (b''' := d)).symm
  exact happend.trans (BitVec.setWidth_eq _)

theorem value_halves (s : State) :
    s.value.extractLsb' 16 16 = s.s2.extractLsb' 0 16 ∧ s.value.extractLsb' 0 16 = s.s1.extractLsb' 0 16 := by
  constructor <;>
  · apply BitVec.eq_of_toNat_eq
    simp only [BitVec.extractLsb'_toNat, Nat.shiftRight_eq_div_pow, value_toNat]
    omega

end Sys2Proof.Machine
end

section
/-! SUPPORT. The statements about order, repetition and byte order (spec/20_memory.md R41 to R49) settled. -/

namespace Sys2Proof.Machine

/-- Settles O6, by induction on the samples driven: each leaves registers that do not depend on the samples after it. -/
theorem outputsSeeEarlierCommandsOnly : Obligations.OutputsSeeEarlierCommandsOnly := by
  intro xs s
  obtain ⟨t, ht⟩ := runSteps_append xs s
  exact ⟨t, fun ys n => ⟨ht ys 0, ht ys n⟩⟩

/-- Settles O20: an update with bytes is told apart by S2 after a repetition from the reset state. -/
theorem repeatingACommandAtOnce : Obligations.RepeatingACommandAtOnce := by
  refine ⟨fun i s hi => ?_, fun cw s h => ?_, fun c h1 h4 => ?_⟩
  · rcases exec_cases i s with ⟨rfl, e⟩ | ⟨seed, rfl, e⟩ | ⟨c, -, rfl, e⟩ | ⟨level, rfl, e⟩ | ⟨cmf, flg, rfl, e⟩ <;>
      refine ⟨_, e, ?_⟩
    · rfl
    · rfl
    · obtain rfl := eq_nil_of_isIdempotent_updateCommand hi
      exact congrArg Host.Outcome.next (absorb_absorb s [] [])
    · rfl
    · exact (exec_hdrDecode_validateHeader cmf flg s).trans e
  · obtain ⟨e, hd⟩ := decode_error_of_illegal h
    exact ⟨s.illegalCommand, acceptWord_of_error hd s, acceptWord_of_error hd s.illegalCommand⟩
  · exact ⟨State.reset, State.reset.absorb c, (State.reset.absorb c).absorb c, exec_updateCommand c h4 _,
      exec_updateCommand c h4 _, absorb_twice_ne c h1 h4⟩

/-- Settles O28: the three wire values as lanes from the last to the first. -/
theorem wireFormatIsBigEndian : Obligations.WireFormatIsBigEndian := by
  refine ⟨fun cmf flg => ⟨be16_toNat cmf flg, headerBytes_be16 cmf flg⟩, fun v k hk => ?_, fun v => ?_, value_halves⟩
  · match k, hk with
    | 0, _ | 1, _ | 2, _ | 3, _ => rfl
  · rw [be32_eq_packLanes]
    exact packLanes_lanes v

/-- Settles O26: the four words are those the encoder makes. -/
theorem lanesAreInStreamOrder : Obligations.LanesAreInStreamOrder :=
  ⟨fun x0 x1 x2 x3 => ⟨decode_encode_adlerUpdate1 x0, decode_encode_adlerUpdate2 x0 x1,
      decode_encode_adlerUpdate3 x0 x1 x2, decode_encode_adlerUpdate4 x0 x1 x2 x3⟩,
    fun _ _ _ => rfl, fun _ _ _ _ _ => ⟨rfl, rfl, rfl, rfl⟩, absorbSums_cons⟩

end Sys2Proof.Machine
end

section
/-! SUPPORT. The decoder, the encoder and the opcode table as three views of one map (spec/30_encoding.md R60 to R67). -/

namespace Sys2Proof

/-! ## The reserved-zero bits -/

/-- The bits from `lo` up are 0 under the mask that has exactly these bits. -/
theorem and_allOnes_shiftLeft_eq_zero_iff {arg : Word} {lo : Nat} :
    arg &&& (BitVec.allOnes 32 <<< lo) = 0 ↔ arg >>> lo = 0 := by
  rw [← BitVec.shiftLeft_ushiftRight]
  refine ⟨fun h => BitVec.eq_of_getLsbD_eq fun i hi => ?_, fun h => by simp [h]⟩
  have hbit : (arg >>> lo <<< lo).getLsbD (i + lo) = false := by simp [h]
  rw [BitVec.getLsbD_shiftLeft, Nat.add_sub_cancel] at hbit
  by_cases hlt : i + lo < 32
  · simpa [hlt] using hbit
  · have hge : 32 ≤ lo + i := by omega
    simp [BitVec.getLsbD_of_ge arg (lo + i) hge]

theorem illegalWord_of_reservedZeroBits {op : BitVec 8} {mask : Word} (h : reservedZeroBits op = some mask) (arg : Word) :
    IllegalWord op arg ↔ arg &&& mask ≠ 0 := by
  simp only [IllegalWord, h]

theorem illegalWord_of_unassigned {op : BitVec 8} (h : reservedZeroBits op = none) (arg : Word) : IllegalWord op arg := by
  simp only [IllegalWord, h]

theorem exists_requireZero_eq_error_iff {op : BitVec 8} {arg : Word} {lo : Nat} {i : Instr} :
    (∃ e, requireZero op arg lo i = .error e) ↔ arg >>> lo ≠ 0 := by
  unfold requireZero
  split_ifs with h
  · exact ⟨nofun, fun hne => absurd h hne⟩
  · exact ⟨fun _ => h, fun _ => ⟨_, rfl⟩⟩

/-- The decoder's check of the bits from `lo` up is R65's check of the row's reserved-zero bits. -/
theorem illegalWord_iff_requireZero_eq_error {op : BitVec 8} {arg : Word} {lo : Nat} {i : Instr}
    (h : reservedZeroBits op = some (BitVec.allOnes 32 <<< lo)) :
    IllegalWord op arg ↔ ∃ e, requireZero op arg lo i = .error e := by
  rw [illegalWord_of_reservedZeroBits h, exists_requireZero_eq_error_iff, Ne, and_allOnes_shiftLeft_eq_zero_iff]

/-- With no reserved-zero bit, no word of the opcode is illegal. -/
theorem not_illegalWord_of_reservedZeroBits_zero {op : BitVec 8} (h : reservedZeroBits op = some 0) (arg : Word) :
    ¬ IllegalWord op arg := by
  rw [illegalWord_of_reservedZeroBits h, not_not]
  exact BitVec.and_zero

/-- R65's illegal words are those the decoder rejects, opcode by opcode. -/
theorem illegalWord_iff_decodeFields_eq_error (op : BitVec 8) (arg : Word) :
    IllegalWord op arg ↔ ∃ e, decodeFields op arg = .error e := by
  unfold decodeFields
  split_ifs with h1 h2 h3 h4 h5 h6 h7 h8 h9
  · exact illegalWord_iff_requireZero_eq_error (h1 ▸ rfl)
  · exact iff_of_false (not_illegalWord_of_reservedZeroBits_zero (h2 ▸ rfl) arg) nofun
  · exact illegalWord_iff_requireZero_eq_error (h3 ▸ rfl)
  · exact illegalWord_iff_requireZero_eq_error (h4 ▸ rfl)
  · exact illegalWord_iff_requireZero_eq_error (h5 ▸ rfl)
  · exact illegalWord_iff_requireZero_eq_error (h6 ▸ rfl)
  · exact iff_of_false (not_illegalWord_of_reservedZeroBits_zero (h7 ▸ rfl) arg) nofun
  · exact illegalWord_iff_requireZero_eq_error (h8 ▸ rfl)
  · exact illegalWord_iff_requireZero_eq_error (h9 ▸ rfl)
  · have hnone : reservedZeroBits op = none := by simp only [reservedZeroBits, *, if_false]
    exact ⟨fun _ => ⟨_, rfl⟩, fun _ => illegalWord_of_unassigned hnone arg⟩

theorem illegalWord_iff_decode_eq_error (op : BitVec 8) (arg : Word) :
    IllegalWord op arg ↔ ∃ e, decode (commandWord op arg) = .error e := by
  rw [decode_commandWord, illegalWord_iff_decodeFields_eq_error]

/-- The unassigned opcodes of R62 are the four ranges between the assigned ones. -/
theorem reservedZeroBits_eq_none_iff (op : BitVec 8) :
    reservedZeroBits op = none ↔ op.toNat = 0x00 ∨ (0x03 ≤ op.toNat ∧ op.toNat ≤ 0x0F) ∨
      (0x15 ≤ op.toNat ∧ op.toNat ≤ 0x1F) ∨ 0x22 ≤ op.toNat := by
  unfold reservedZeroBits
  split_ifs
  all_goals simp only [false_iff, true_iff]
  all_goals bv_omega

/-! ## Decoding and encoding -/

theorem packLanes_of_shift8 {arg : Word} (h : arg >>> 8 = 0) : packLanes (lane arg 0) 0 0 0 = arg := by
  have h1 : lane arg 1 = 0 := lane_eq_zero_of_shift arg 8 1 h (by decide)
  have h2 : lane arg 2 = 0 := lane_eq_zero_of_shift arg 8 2 h (by decide)
  have h3 : lane arg 3 = 0 := lane_eq_zero_of_shift arg 8 3 h (by decide)
  simpa only [h1, h2, h3] using packLanes_lanes arg

theorem packLanes_of_shift16 {arg : Word} (h : arg >>> 16 = 0) : packLanes (lane arg 0) (lane arg 1) 0 0 = arg := by
  have h2 : lane arg 2 = 0 := lane_eq_zero_of_shift arg 16 2 h (by decide)
  have h3 : lane arg 3 = 0 := lane_eq_zero_of_shift arg 16 3 h (by decide)
  simpa only [h2, h3] using packLanes_lanes arg

theorem packLanes_of_shift24 {arg : Word} (h : arg >>> 24 = 0) :
    packLanes (lane arg 0) (lane arg 1) (lane arg 2) 0 = arg := by
  have h3 : lane arg 3 = 0 := lane_eq_zero_of_shift arg 24 3 h (by decide)
  simpa only [h3] using packLanes_lanes arg

/-- The two bits a level is read from are the whole operand when the bits above are 0. -/
theorem extractLsb'_level_of_shift2 {arg : Word} (h : arg >>> 2 = 0) : (arg.extractLsb' 0 2).setWidth 32 = arg := by
  have hn : arg.toNat / 2 ^ 2 = 0 := by
    rw [← Nat.shiftRight_eq_div_pow, ← BitVec.toNat_ushiftRight, h]; rfl
  apply BitVec.eq_of_toNat_eq
  rw [BitVec.toNat_setWidth, BitVec.extractLsb'_toNat, Nat.shiftRight_zero]
  omega

/-- The fields a command is read from are the fields it is written with. -/
theorem fields_of_decodeFields {op : BitVec 8} {arg : Word} {i : Instr} (h : decodeFields op arg = .ok i) :
    i.opcode = op ∧ i.operand = arg := by
  unfold decodeFields at h
  split_ifs at h <;> subst op
  · obtain ⟨h0, rfl⟩ := Machine.requireZero_eq_ok_iff.1 h
    exact ⟨rfl, h0.symm⟩
  · cases h
    exact ⟨rfl, rfl⟩
  · obtain ⟨h0, rfl⟩ := Machine.requireZero_eq_ok_iff.1 h
    exact ⟨rfl, h0.symm⟩
  · obtain ⟨h8, rfl⟩ := Machine.requireZero_eq_ok_iff.1 h
    exact ⟨rfl, packLanes_of_shift8 h8⟩
  · obtain ⟨h16, rfl⟩ := Machine.requireZero_eq_ok_iff.1 h
    exact ⟨rfl, packLanes_of_shift16 h16⟩
  · obtain ⟨h24, rfl⟩ := Machine.requireZero_eq_ok_iff.1 h
    exact ⟨rfl, packLanes_of_shift24 h24⟩
  · cases h
    exact ⟨rfl, packLanes_lanes arg⟩
  · obtain ⟨h2, rfl⟩ := Machine.requireZero_eq_ok_iff.1 h
    exact ⟨rfl, by rw [Instr.operand, code_ofCode, extractLsb'_level_of_shift2 h2]⟩
  · obtain ⟨h16, rfl⟩ := Machine.requireZero_eq_ok_iff.1 h
    exact ⟨rfl, packLanes_of_shift16 h16⟩

theorem encode_of_decode {cw : CommandWord} {i : Instr} (h : decode cw = .ok i) : encode i = cw := by
  obtain ⟨hop, harg⟩ := fields_of_decodeFields h
  rw [encode, hop, harg, commandWord_op_arg]

theorem decode_encode_hdrEncode (level : Level) : decode (encode (.hdrEncode level)) = .ok (.hdrEncode level) := by
  cases level <;> decide

theorem decode_encode_hdrDecode (cmf flg : Byte) : decode (encode (.hdrDecode cmf flg)) = .ok (.hdrDecode cmf flg) := by
  rw [encode, decode_commandWord]
  exact Machine.requireZero_eq_ok_iff.2
    ⟨packLanes_shift16 flg cmf, by rw [Instr.operand, lane0_packLanes, lane1_packLanes]⟩

theorem decode_encode : ∀ i : Instr, decode (encode i) = .ok i
  | .adlerInit => by decide
  | .adlerSeed _ => decode_commandWord _ _
  | .adlerUpdate0 => by decide
  | .adlerUpdate1 b0 => Machine.decode_encode_adlerUpdate1 b0
  | .adlerUpdate2 b0 b1 => Machine.decode_encode_adlerUpdate2 b0 b1
  | .adlerUpdate3 b0 b1 b2 => Machine.decode_encode_adlerUpdate3 b0 b1 b2
  | .adlerUpdate4 b0 b1 b2 b3 => Machine.decode_encode_adlerUpdate4 b0 b1 b2 b3
  | .hdrEncode level => decode_encode_hdrEncode level
  | .hdrDecode cmf flg => decode_encode_hdrDecode cmf flg

/-! ## The rows of the opcode table -/

theorem commandWord_inj {op op' : BitVec 8} {arg arg' : Word} :
    commandWord op arg = commandWord op' arg' ↔ op = op' ∧ arg = arg' := by
  refine ⟨fun h => ⟨?_, ?_⟩, fun ⟨hop, harg⟩ => by rw [hop, harg]⟩
  · rw [← op_commandWord op arg, h, op_commandWord]
  · rw [← arg_commandWord op arg, h, arg_commandWord]

/-- The opcode of a row of the table (R62). -/
def Mnemonic.opcode : Mnemonic → BitVec 8
  | .adlerInit => 0x01
  | .adlerSeed => 0x02
  | .adlerUpdate0 => 0x10
  | .adlerUpdate1 => 0x11
  | .adlerUpdate2 => 0x12
  | .adlerUpdate3 => 0x13
  | .adlerUpdate4 => 0x14
  | .hdrEncode => 0x20
  | .hdrDecode => 0x21

/-- The reserved-zero bits of a row's opcode; every row has an assigned opcode (`reservedZeroBits_opcode`). -/
def Mnemonic.reserved (m : Mnemonic) : Word := (reservedZeroBits m.opcode).getD 0

/-- The row that fixes a mnemonic's opcode and its reserved bits at 0. -/
def Mnemonic.row (m : Mnemonic) : TableRow := ⟨m, commandWord m.opcode 0, commandWord 0xFF m.reserved⟩

theorem opcodeTable_eq_map_row : opcodeTable = Machine.allMnemonics.map Mnemonic.row := by decide

theorem reservedZeroBits_opcode (m : Mnemonic) : reservedZeroBits m.opcode = some m.reserved := by cases m <;> rfl

theorem opcode_mnemonic (i : Instr) : i.mnemonic.opcode = i.opcode := by cases i <;> rfl

theorem mem_allMnemonics (m : Mnemonic) : m ∈ Machine.allMnemonics := by cases m <;> decide

/-- No two rows share an opcode. -/
theorem opcode_injective : Function.Injective Mnemonic.opcode := by
  have hnodup : (Machine.allMnemonics.map Mnemonic.opcode).Nodup := by decide
  intro m m' h
  exact List.inj_on_of_nodup_map hnodup (mem_allMnemonics m) (mem_allMnemonics m') h

theorem row_covers_iff {m : Mnemonic} {op : BitVec 8} {arg : Word} :
    m.row.covers (commandWord op arg) = true ↔ op = m.opcode ∧ arg &&& m.reserved = 0 := by
  have hop : op &&& 0xFF = op := BitVec.and_allOnes
  rw [TableRow.covers, beq_iff_eq, Mnemonic.row, Machine.commandWord_and, hop, commandWord_inj]

/-- A row covers the words of its opcode that are not illegal. -/
theorem row_covers_iff_not_illegalWord {m : Mnemonic} {op : BitVec 8} {arg : Word} :
    m.row.covers (commandWord op arg) = true ↔ op = m.opcode ∧ ¬ IllegalWord op arg := by
  rw [row_covers_iff]
  refine and_congr_right fun hop => ?_
  rw [hop, illegalWord_of_reservedZeroBits (reservedZeroBits_opcode m), not_not]

theorem not_illegalWord_of_decode {op : BitVec 8} {arg : Word} {i : Instr} (h : decode (commandWord op arg) = .ok i) :
    ¬ IllegalWord op arg := by
  rw [illegalWord_iff_decode_eq_error, h]
  exact nofun

/-- Opcodes tell the rows apart, so the rows covering a command's word are its own row alone. -/
theorem row_covers_encode_iff {m : Mnemonic} {i : Instr} : m.row.covers (encode i) = true ↔ m = i.mnemonic := by
  rw [encode, row_covers_iff_not_illegalWord, and_iff_left (not_illegalWord_of_decode (decode_encode i)), ← opcode_mnemonic,
    opcode_injective.eq_iff, eq_comm]

theorem filter_eq_mnemonic (m : Mnemonic) : Machine.allMnemonics.filter (· = m) = [m] := by cases m <;> rfl

theorem filter_covers_encode (i : Instr) : opcodeTable.filter (fun r => r.covers (encode i)) = [i.mnemonic.row] := by
  have hrow : ((fun r : TableRow => r.covers (encode i)) ∘ Mnemonic.row) = fun m => decide (m = i.mnemonic) :=
    funext fun m => Bool.eq_iff_iff.2 (row_covers_encode_iff.trans decide_eq_true_iff.symm)
  rw [opcodeTable_eq_map_row, List.filter_map, hrow, filter_eq_mnemonic, List.map_singleton]

theorem filter_covers_of_decode_eq_error {cw : CommandWord} {e : DecodeError} (h : decode cw = .error e) :
    opcodeTable.filter (fun r => r.covers cw) = [] := by
  rw [opcodeTable_eq_map_row, List.filter_eq_nil_iff]
  rintro _ hr hcov
  obtain ⟨m, -, rfl⟩ := List.mem_map.1 hr
  rw [← commandWord_op_arg cw] at h hcov
  obtain ⟨-, hlegal⟩ := row_covers_iff_not_illegalWord.1 hcov
  exact hlegal ((illegalWord_iff_decode_eq_error _ _).2 ⟨e, h⟩)

end Sys2Proof
end

section
/-! SUPPORT. The assembler as the inverse of the disassembler (spec/30_encoding.md R68). -/

namespace Sys2Proof.Machine

/-- Well formed: one literal for each operand width, each within its width. -/
theorem wellFormed_iff_forall₂ {c : AsmCommand} :
    c.wellFormed = true ↔ List.Forall₂ (fun n w => n < 2 ^ w) c.operands (operandWidths c.mnemonic) := by
  rw [List.forall₂_iff_zip]
  simp [AsmCommand.wellFormed, AsmCommand.operandCountOk, AsmCommand.literalsFit]

theorem assemble_eq_error_of_not_wellFormed {c : AsmCommand} (h : c.wellFormed = false) : ∃ e, assemble c = .error e := by
  unfold assemble
  cases hcount : c.operandCountOk with
  | false => exact ⟨.operandCount, rfl⟩
  | true =>
    have hfit : c.literalsFit = false := by simpa only [AsmCommand.wellFormed, hcount, Bool.true_and] using h
    exact ⟨.literalTooWide, by simp [hfit]⟩

/-- The operands of a command have the widths of its mnemonic. -/
theorem forall₂_operandNumbers : ∀ i : Instr,
    List.Forall₂ (fun n w => n < 2 ^ w) (operandNumbers i) (operandWidths i.mnemonic)
  | .adlerInit | .adlerUpdate0 => .nil
  | .adlerSeed seed => .cons seed.isLt .nil
  | .adlerUpdate1 b0 => .cons b0.isLt .nil
  | .adlerUpdate2 b0 b1 => .cons b0.isLt (.cons b1.isLt .nil)
  | .adlerUpdate3 b0 b1 b2 => .cons b0.isLt (.cons b1.isLt (.cons b2.isLt .nil))
  | .adlerUpdate4 b0 b1 b2 b3 => .cons b0.isLt (.cons b1.isLt (.cons b2.isLt (.cons b3.isLt .nil)))
  | .hdrEncode level => .cons level.code.isLt .nil
  | .hdrDecode cmf flg => .cons cmf.isLt (.cons flg.isLt .nil)

theorem wellFormed_disassemble (i : Instr) : (disassemble i).wellFormed = true :=
  wellFormed_iff_forall₂.2 (forall₂_operandNumbers i)

theorem assemble_disassemble (i : Instr) : assemble (disassemble i) = .ok i := by
  obtain ⟨hcount, hfit⟩ := Bool.and_eq_true_iff.1 (wellFormed_disassemble i)
  rw [assemble, hcount, hfit]
  cases i <;> simp [disassemble, operandNumbers, Instr.mnemonic, ofCode_code]

theorem exists_toNat_eq {w n : Nat} (h : n < 2 ^ w) : ∃ b : BitVec w, b.toNat = n :=
  ⟨BitVec.ofNat w n, (BitVec.toNat_ofNat n w).trans (Nat.mod_eq_of_lt h)⟩

/-- Literals within their widths are the numbers of some operands. -/
theorem exists_disassemble_eq {m : Mnemonic} {ns : List Nat}
    (h : List.Forall₂ (fun n w => n < 2 ^ w) ns (operandWidths m)) : ∃ i, disassemble i = ⟨m, ns⟩ := by
  match m, ns, h with
  | .adlerInit, [], _ => exact ⟨.adlerInit, rfl⟩
  | .adlerSeed, [_], .cons h0 .nil =>
    obtain ⟨seed, rfl⟩ := exists_toNat_eq h0
    exact ⟨.adlerSeed seed, rfl⟩
  | .adlerUpdate0, [], _ => exact ⟨.adlerUpdate0, rfl⟩
  | .adlerUpdate1, [_], .cons h0 .nil =>
    obtain ⟨b0, rfl⟩ := exists_toNat_eq h0
    exact ⟨.adlerUpdate1 b0, rfl⟩
  | .adlerUpdate2, [_, _], .cons h0 (.cons h1 .nil) =>
    obtain ⟨b0, rfl⟩ := exists_toNat_eq h0
    obtain ⟨b1, rfl⟩ := exists_toNat_eq h1
    exact ⟨.adlerUpdate2 b0 b1, rfl⟩
  | .adlerUpdate3, [_, _, _], .cons h0 (.cons h1 (.cons h2 .nil)) =>
    obtain ⟨b0, rfl⟩ := exists_toNat_eq h0
    obtain ⟨b1, rfl⟩ := exists_toNat_eq h1
    obtain ⟨b2, rfl⟩ := exists_toNat_eq h2
    exact ⟨.adlerUpdate3 b0 b1 b2, rfl⟩
  | .adlerUpdate4, [_, _, _, _], .cons h0 (.cons h1 (.cons h2 (.cons h3 .nil))) =>
    obtain ⟨b0, rfl⟩ := exists_toNat_eq h0
    obtain ⟨b1, rfl⟩ := exists_toNat_eq h1
    obtain ⟨b2, rfl⟩ := exists_toNat_eq h2
    obtain ⟨b3, rfl⟩ := exists_toNat_eq h3
    exact ⟨.adlerUpdate4 b0 b1 b2 b3, rfl⟩
  | .hdrEncode, [_], .cons h0 .nil =>
    obtain ⟨code, rfl⟩ := exists_toNat_eq h0
    exact ⟨.hdrEncode (.ofCode code), by rw [disassemble, operandNumbers, code_ofCode, Instr.mnemonic]⟩
  | .hdrDecode, [_, _], .cons h0 (.cons h1 .nil) =>
    obtain ⟨cmf, rfl⟩ := exists_toNat_eq h0
    obtain ⟨flg, rfl⟩ := exists_toNat_eq h1
    exact ⟨.hdrDecode cmf flg, rfl⟩

end Sys2Proof.Machine
end

section
/-! SUPPORT. The statements about command words and their spelling (spec/30_encoding.md R60 to R68) settled. -/

namespace Sys2Proof.Machine

/-- Settles O21: each command's lanes and level are read back from the operand that packs them. -/
theorem decodeOfEncode : Obligations.DecodeOfEncode :=
  decode_encode

/-- Settles O22: a decoded word has the fields its command is written with. -/
theorem encodeOfDecode : Obligations.EncodeOfDecode :=
  fun _ _ h => encode_of_decode h

/-- Settles O23: a row covers the legal words of its opcode, and no two rows share an opcode. -/
theorem everyWordIsOneCommandOrIllegal : Obligations.EveryWordIsOneCommandOrIllegal := by
  intro cw
  cases hd : decode cw with
  | ok i =>
    rw [← encode_of_decode hd]
    exact .inl ⟨i, i.mnemonic.row, rfl, filter_covers_encode i, rfl⟩
  | error e => exact .inr ⟨e, rfl, filter_covers_of_decode_eq_error hd⟩

/-- Settles O24: the decoder's shifts test the bits of R63's masks. -/
theorem illegalWordsWriteOnlyStatus : Obligations.IllegalWordsWriteOnlyStatus := by
  intro op arg
  have hillegal : IllegalWord op arg ↔ ∃ e, decode (op ++ arg) = .error e := illegalWord_iff_decode_eq_error op arg
  refine ⟨hillegal, reservedZeroBits_eq_none_iff op, rfl, fun s h => ?_⟩
  obtain ⟨e, he⟩ := hillegal.1 h
  exact acceptWord_of_error he s

/-- Settles O27: every well-formed assembly command is the spelling of a command, and spelling is undone by assembling. -/
theorem assemblerNeverTruncates : Obligations.AssemblerNeverTruncates := by
  refine ⟨fun c h => assemble_eq_error_of_not_wellFormed h, fun c h => ?_, assemble_disassemble⟩
  obtain ⟨i, hi⟩ := exists_disassemble_eq (wellFormed_iff_forall₂.1 h)
  exact ⟨i, (congrArg assemble hi).symm.trans (assemble_disassemble i), hi⟩

/-- Settles O3: the sample presented is served as a command, and the decoder chooses between its meaning and IllegalCommand. -/
theorem stepRunsTheDecodedCommand : Obligations.StepRunsTheDecodedCommand := by
  refine ⟨fun s cw i rest hin hd => ?_, fun s cw e rest hin hd => ?_, fun _ => step_of_inputs_nil⟩
  · rw [step_of_inputs_cons hin, servePorts_of_command rfl rfl]
    exact acceptWord_of_ok hd _
  · rw [step_of_inputs_cons hin, servePorts_of_command rfl rfl]
    exact acceptWord_of_error hd _

/-- Settles O25: each legal word is what the encoder makes of its command, and the three others fail a check by name. -/
theorem wordsOfTheSpecDecode : Obligations.WordsOfTheSpecDecode :=
  ⟨decode_encode .adlerInit, decode_encode (.adlerSeed 0x12345678), decode_encode .adlerUpdate0,
    decode_encode (.adlerUpdate1 0x61), decode_encode (.adlerUpdate2 0x01 0x02),
    decode_encode (.adlerUpdate3 0x61 0x62 0x63), decode_encode (.adlerUpdate4 0x57 0x69 0x6B 0x69),
    decode_encode (.hdrEncode .balanced), decode_encode (.hdrDecode 0x78 0x9C), by decide, by decide, by decide⟩

end Sys2Proof.Machine
end

section
/-! SUPPORT. Host sequences as commands performed one after another, and what a sequence of updates leaves (spec/40_adler32.md R106;
spec/44_envelope_sequences.md R161). -/

namespace Sys2Proof.Machine

/-! ## Issued commands -/

theorem issue_eq_exec (i : Instr) (s : State) : issue i s = exec i s := by
  rw [issue, step_present, acceptWord_of_ok (decode_encode i)]

theorem issueAll_cons_of_exec {i : Instr} {s t : State} (h : exec i s = .next t) (rest : List Instr) :
    issueAll (i :: rest) s = issueAll rest t := by
  simp only [issueAll, issue_eq_exec, h]

/-- Serving the samples of some commands is issuing the commands and then driving what followed them. -/
theorem runSteps_commandSamples (is : List Instr) {s : State} {rest : List PortSample}
    (hin : s.inputs = commandSamples is ++ rest) : runSteps is.length s = issueAll is { s with inputs := rest } := by
  induction is generalizing s with
  | nil =>
    obtain rfl : s.inputs = rest := hin
    rfl
  | cons i is ih =>
    obtain ⟨t, ht⟩ := exec_ignoresInputs i s
    have hstep : step s = .next { t with inputs := commandSamples is ++ rest } := by
      rw [step_of_inputs_cons hin, servePorts_of_command rfl rfl]
      exact (acceptWord_of_ok (decode_encode i) _).trans (ht _)
    rw [List.length_cons, runSteps_succ _ hstep, issueAll_cons_of_exec (ht rest)]
    exact ih rfl

/-! ## Sequences of updates -/

/-- The update commands of some chunks, at least one, absorb the bytes of all of them. -/
theorem issueAll_map_updateCommand {cs : List Bytes} (hne : cs ≠ []) (hcs : ∀ c ∈ cs, c.length ≤ 4) (s : State) :
    issueAll (cs.map updateCommand) s = .next (s.absorb cs.flatten) := by
  induction cs generalizing s with
  | nil => exact absurd rfl hne
  | cons c cs ih =>
    obtain ⟨hc, hrest⟩ := List.forall_mem_cons.1 hcs
    rw [List.map_cons, issueAll_cons_of_exec (exec_updateCommand c hc s), List.flatten_cons]
    by_cases hnil : cs = []
    · subst cs
      rw [List.flatten_nil, List.append_nil]
      rfl
    · rw [ih hnil hrest, absorb_absorb]

theorem flatten_chunksOf4 (x : Bytes) : (chunksOf4 x).flatten = x := by
  induction x using chunksOf4.induct with
  | case1 | case2 | case3 | case4 => rfl
  | case5 b0 b1 b2 b3 rest ih => simp [chunksOf4, ih]

theorem length_le_of_mem_chunksOf4 (x : Bytes) : ∀ c ∈ chunksOf4 x, c.length ≤ 4 := by
  induction x using chunksOf4.induct with
  | case1 | case2 | case3 | case4 => simp [chunksOf4]
  | case5 b0 b1 b2 b3 rest ih => simpa [chunksOf4] using ih

/-- The commands of UPDATE_BYTES carry x in chunks, one chunk of no bytes where x has none. -/
theorem exists_chunks_updateBytesCommands (x : Bytes) : ∃ cs : List Bytes,
    cs ≠ [] ∧ (∀ c ∈ cs, c.length ≤ 4) ∧ cs.flatten = x ∧ updateBytesCommands x = cs.map updateCommand := by
  by_cases hx : x.length = 0
  · obtain rfl := List.eq_nil_of_length_eq_zero hx
    exact ⟨[[]], by simp, by simp, rfl, rfl⟩
  · refine ⟨chunksOf4 x, fun hnil => hx ?_, length_le_of_mem_chunksOf4 x, flatten_chunksOf4 x, if_neg hx⟩
    rw [← flatten_chunksOf4 x, hnil]
    rfl

theorem issueAll_updateBytesCommands (x : Bytes) (s : State) :
    issueAll (updateBytesCommands x) s = .next (s.absorb x) := by
  obtain ⟨cs, hne, hcs, hflatten, hcommands⟩ := exists_chunks_updateBytesCommands x
  rw [hcommands, issueAll_map_updateCommand hne hcs, hflatten]

/-! ## The checksum of a sequence -/

theorem exec_adlerInit (s : State) : exec .adlerInit s = .next (s.setSums 1 0).complete := rfl

theorem checksum_eq (x : Bytes) (s : State) : checksum x s = .next ((s.setSums 1 0).complete.absorb x) := by
  rw [checksum, issueAll_cons_of_exec (exec_adlerInit s), issueAll_updateBytesCommands]

theorem adler32_toNat (x : Bytes) :
    (adler32 x).toNat = (x.length + weightedSum x) % 65521 * 65536 + (1 + byteSum x) % 65521 := by
  have hlow : (1 + byteSum x) % 65521 < 2 ^ 16 := by omega
  simp only [adler32, Config.modAdler]
  rw [← Nat.shiftLeft_add_eq_or_of_lt hlow, Nat.shiftLeft_eq, BitVec.toNat_ofNat]
  omega

/-- From the sums of ADLER_INIT, absorbing leaves both halves of A(x) (R107). -/
theorem value_absorb_init (x : Bytes) (s : State) : ((s.setSums 1 0).complete.absorb x).value = adler32 x := by
  apply BitVec.eq_of_toNat_eq
  rw [value_toNat, absorb_s1, absorb_s2, adler32_toNat, State.complete_s1, State.complete_s2, State.setSums_s1,
    State.setSums_s2, show (BitVec.ofNat 32 1).toNat = 1 from rfl, show (BitVec.ofNat 32 0).toNat = 0 from rfl, Nat.mul_one,
    Nat.zero_add]
  omega

/-- The sum of the bytes, indexed as the rule writes it (R105). -/
theorem sum_map_range_getD (x : Bytes) : ((List.range x.length).map fun k => (x.getD k 0).toNat).sum = byteSum x := by
  induction x with
  | nil => rfl
  | cons b rest ih =>
    rw [byteSum_cons, ← ih, List.length_cons, List.range_succ_eq_map, List.map_cons, List.map_map, List.sum_cons]
    rfl

end Sys2Proof.Machine
end

section
/-! SUPPORT. The engine in wrapping 32-bit arithmetic: the byte steps are exact up to the wrap, and a run of at most 5552 bytes does
not reach it (spec/40_adler32.md R109, R110). -/

namespace Sys2Proof.Machine

/-- Both sums as 32-bit words, which is where a 32-bit implementation wraps. -/
def wrap32 (t : Nat × Nat) : Word × Word := (BitVec.ofNat 32 t.1, BitVec.ofNat 32 t.2)

theorem wrap32_toNat (x y : Word) : wrap32 (x.toNat, y.toNat) = (x, y) := by
  rw [wrap32, BitVec.ofNat_toNat, BitVec.ofNat_toNat, BitVec.setWidth_eq, BitVec.setWidth_eq]

theorem byteStep32_wrap32 (t : Nat × Nat) (b : Byte) : byteStep32 (wrap32 t) b = wrap32 (byteStep t b) := by
  have hb : b.setWidth 32 = BitVec.ofNat 32 b.toNat := (BitVec.ofNat_toNat 32 b).symm
  simp only [byteStep32, wrap32, byteStep, hb, BitVec.ofNat_add, add_assoc]

/-- Wrapping after each byte step is wrapping once at the end. -/
theorem foldl_byteStep32 (x y : Word) (c : Bytes) :
    c.foldl byteStep32 (x, y) = wrap32 (absorbSums (x.toNat, y.toNat) c) := by
  rw [← wrap32_toNat x y]
  exact List.foldl_hom wrap32 byteStep32_wrap32

theorem wrap32_toNat_of_lt {t : Nat × Nat} (h1 : t.1 < 2 ^ 32) (h2 : t.2 < 2 ^ 32) :
    (wrap32 t).1.toNat = t.1 ∧ (wrap32 t).2.toNat = t.2 := by
  simp only [wrap32, BitVec.toNat_ofNat, Nat.mod_eq_of_lt h1, Nat.mod_eq_of_lt h2, and_self]

theorem ofNat_umod_modAdler {n : Nat} (h : n < 2 ^ 32) :
    BitVec.ofNat 32 n % BitVec.ofNat 32 Config.modAdler = BitVec.ofNat 32 (n % Config.modAdler) := by
  apply BitVec.eq_of_toNat_eq
  rw [BitVec.toNat_umod, toNat_residue, BitVec.toNat_ofNat, Nat.mod_eq_of_lt h]
  rfl

theorem reduce32_wrap32 {t : Nat × Nat} (h1 : t.1 < 2 ^ 32) (h2 : t.2 < 2 ^ 32) :
    reduce32 (wrap32 t) = wrap32 (t.1 % Config.modAdler, t.2 % Config.modAdler) :=
  Prod.ext (ofNat_umod_modAdler h1) (ofNat_umod_modAdler h2)

/-- Byte k is at most 255 and counted n - k times, and the counts sum to n(n+1)/2. -/
theorem two_mul_weightedSum_le (x : Bytes) : 2 * weightedSum x ≤ 255 * (x.length * (x.length + 1)) := by
  induction x with
  | nil => exact Nat.le_refl 0
  | cons b rest ih =>
    have hb : b.toNat ≤ 255 := Nat.le_of_lt_succ b.isLt
    have hfirst : (rest.length + 1) * b.toNat ≤ (rest.length + 1) * 255 := Nat.mul_le_mul_left _ hb
    rw [weightedSum_cons, List.length_cons]
    linarith

/-- The sums from a bounded state, by the number of bytes. -/
theorem absorbSums_le {s : State} (hs : s.Bounded) {c : Bytes} {n : Nat} (hc : c.length ≤ n) :
    (absorbSums (s.s1.toNat, s.s2.toNat) c).1 ≤ 65535 + 255 * n ∧
    2 * (absorbSums (s.s1.toNat, s.s2.toNat) c).2 ≤ 2 * ((n + 1) * 65535) + 255 * (n * (n + 1)) := by
  obtain ⟨h1, h2⟩ := hs
  have hbytes := byteSum_le c
  have hweighted := two_mul_weightedSum_le c
  have hcross : c.length * s.s1.toNat ≤ n * 65535 := Nat.mul_le_mul hc (by omega)
  have hcount : c.length * (c.length + 1) ≤ n * (n + 1) := Nat.mul_le_mul hc (by omega)
  rw [absorbSums_closed]
  constructor <;> dsimp only <;> omega

/-- A run of at most 5552 bytes from a bounded state does not wrap. -/
theorem absorbSums_lt {s : State} (hs : s.Bounded) {c : Bytes} (hc : c.length ≤ 5552) :
    (absorbSums (s.s1.toNat, s.s2.toNat) c).1 < 2 ^ 32 ∧ (absorbSums (s.s1.toNat, s.s2.toNat) c).2 < 2 ^ 32 := by
  obtain ⟨h1, h2⟩ := absorbSums_le hs hc
  omega

theorem absorb_bounded (s : State) (c : Bytes) : (s.absorb c).Bounded :=
  State.Reduced.bounded (absorb_le s c)

/-- One run of the schedule and its reduction is one absorb. -/
theorem reduce32_foldl_byteStep32 {s : State} (hs : s.Bounded) {c : Bytes} (hc : c.length ≤ 5552) :
    reduce32 (c.foldl byteStep32 (s.s1, s.s2)) = ((s.absorb c).s1, (s.absorb c).s2) := by
  obtain ⟨h1, h2⟩ := absorbSums_lt hs hc
  rw [foldl_byteStep32, reduce32_wrap32 h1 h2]
  rfl

theorem scheduledUpdate_eq_absorb {runs : List Bytes} (hne : runs ≠ []) (hruns : ∀ r ∈ runs, r.length ≤ 5552) {s : State}
    (hs : s.Bounded) :
    scheduledUpdate runs (s.s1, s.s2) = ((s.absorb runs.flatten).s1, (s.absorb runs.flatten).s2) := by
  induction runs generalizing s with
  | nil => exact absurd rfl hne
  | cons r runs ih =>
    obtain ⟨hr, hrest⟩ := List.forall_mem_cons.1 hruns
    rw [scheduledUpdate, List.foldl_cons, reduce32_foldl_byteStep32 hs hr, List.flatten_cons]
    by_cases hnil : runs = []
    · subst runs
      rw [List.foldl_nil, List.flatten_nil, List.append_nil]
    · rw [← absorb_absorb]
      exact ih hnil hrest (absorb_bounded s r)

/-- 5552 is the largest interval for which R110's binding bound fits 32 bits. -/
theorem nmax_bound_iff (n : Nat) : 255 * (n * (n + 1)) / 2 + (n + 1) * 65520 ≤ 2 ^ 32 - 1 ↔ n ≤ 5552 := by
  constructor
  · intro h
    by_contra hlt
    have hcount : 5553 * 5554 ≤ n * (n + 1) := Nat.mul_le_mul (by omega) (by omega)
    omega
  · intro h
    have hcount : n * (n + 1) ≤ 5552 * 5553 := Nat.mul_le_mul h (by omega)
    omega

end Sys2Proof.Machine
end

section
/-! SUPPORT. The words of the engine's opcodes, and the sums its single commands leave (spec/40_adler32.md R101 to R108). -/

namespace Sys2Proof.Machine

/-! ## Words -/

/-- A word that sets a bit its opcode holds at 0 from `lo` up writes STATUS alone (R64, R65). -/
theorem acceptWord_of_reservedBit {op : BitVec 8} {lo : Nat} (hop : reservedZeroBits op = some (BitVec.allOnes 32 <<< lo))
    {arg : Word} (harg : arg >>> lo ≠ 0) (s : State) :
    acceptWord (commandWord op arg) s = .next s.illegalCommand := by
  have hillegal : IllegalWord op arg := by
    rwa [illegalWord_of_reservedZeroBits hop, Ne, and_allOnes_shiftLeft_eq_zero_iff]
  obtain ⟨e, he⟩ := (illegalWord_iff_decode_eq_error op arg).1 hillegal
  exact acceptWord_of_error he s

theorem acceptWord_of_unassigned {op : BitVec 8} (hop : reservedZeroBits op = none) (arg : Word) (s : State) :
    acceptWord (commandWord op arg) s = .next s.illegalCommand := by
  obtain ⟨e, he⟩ := (illegalWord_iff_decode_eq_error op arg).1 (illegalWord_of_unassigned hop arg)
  exact acceptWord_of_error he s

theorem decode_of_requireZero {op : BitVec 8} {arg : Word} {lo : Nat} {i : Instr}
    (hop : decodeFields op arg = requireZero op arg lo i) (harg : arg >>> lo = 0) : decode (commandWord op arg) = .ok i := by
  rw [decode_commandWord, hop]
  exact requireZero_eq_ok_iff.2 ⟨harg, rfl⟩

theorem isEngine_of_opcode_mem {i : Instr} (h : i.opcode ∈ [0x01#8, 0x02, 0x10, 0x11, 0x12, 0x13, 0x14]) :
    isEngine i = true := by
  cases i with
  | adlerInit | adlerSeed | adlerUpdate0 | adlerUpdate1 | adlerUpdate2 | adlerUpdate3 | adlerUpdate4 => rfl
  | hdrEncode | hdrDecode => simp [Instr.opcode] at h

theorem opcode_of_decode {cw : CommandWord} {i : Instr} (h : decode cw = .ok i) : i.opcode = cw.op := by
  rw [← encode_of_decode h, encode, op_commandWord]

/-! ## STATUS and sums -/

theorem exec_status_of_isEngine {i : Instr} {s t : State} (hi : isEngine i = true) (h : exec i s = .next t) :
    t.status = 0x00 := by
  rcases exec_cases i s with ⟨-, e⟩ | ⟨_, -, e⟩ | ⟨_, -, -, e⟩ | ⟨level, rfl, -⟩ | ⟨cmf, flg, rfl, -⟩
  · rw [e] at h; cases h; rfl
  · rw [e] at h; cases h; rfl
  · rw [e] at h; cases h; rfl
  · simp [isEngine] at hi
  · simp [isEngine] at hi

theorem ofNat_extractLsb'_low (x : Word) : BitVec.ofNat 32 (x.extractLsb' 0 16).toNat = x &&& 0xFFFF := by
  apply BitVec.eq_of_toNat_eq
  rw [ofNat_extractLsb'_toNat, BitVec.toNat_and, pow_zero, Nat.div_one]
  exact (Nat.and_two_pow_sub_one_eq_mod _ 16).symm

theorem ofNat_extractLsb'_high (x : Word) : BitVec.ofNat 32 (x.extractLsb' 16 16).toNat = (x >>> 16) &&& 0xFFFF := by
  apply BitVec.eq_of_toNat_eq
  rw [ofNat_extractLsb'_toNat, BitVec.toNat_and, BitVec.toNat_ushiftRight, Nat.shiftRight_eq_div_pow]
  exact (Nat.and_two_pow_sub_one_eq_mod _ 16).symm

/-- The state ADLER_SEED leaves (R102). -/
theorem exec_adlerSeed (seed : Word) (s : State) : exec (.adlerSeed seed) s =
    .next { s with s1 := seed &&& 0xFFFF, s2 := (seed >>> 16) &&& 0xFFFF, status := 0x00 } := by
  rw [← ofNat_extractLsb'_low, ← ofNat_extractLsb'_high]
  rfl

theorem value_of_exec_adlerSeed {seed : Word} {s t : State} (h : exec (.adlerSeed seed) s = .next t) : t.value = seed := by
  have hseed := seed.isLt
  apply BitVec.eq_of_toNat_eq
  rw [value_toNat]
  rcases exec_sums h with ⟨hi, -⟩ | ⟨seed', hi, h1, h2⟩ | ⟨hi, -⟩
  · simp [isUpdate] at hi
  · cases hi
    omega
  · simp [isEngine] at hi

/-- An update of no bytes leaves reduced sums as they are. -/
theorem absorb_nil_of_reduced {s : State} (h : s.Reduced) : s.absorb [] = s.complete := by
  obtain ⟨h1, h2⟩ := h
  refine State.eq_of_fields (BitVec.eq_of_toNat_eq ?_) (BitVec.eq_of_toNat_eq ?_) rfl rfl rfl rfl
  · rw [absorb_s1, byteSum_nil, State.complete_s1]
    omega
  · rw [absorb_s2, weightedSum_nil, List.length_nil, State.complete_s2]
    omega

end Sys2Proof.Machine
end

section
/-! SUPPORT. The statements about the checksum engine (spec/40_adler32.md) settled. -/

namespace Sys2Proof.Machine

/-- Settles O30: the halves are taken apart and put together again; the next update reduces whatever it finds. -/
theorem adlerSeedStoresTheHalves : Obligations.AdlerSeedStoresTheHalves := by
  obtain ⟨-, -, hreduces, -⟩ := sumsStayBounded
  refine ⟨fun seed s => ?_, fun seed => decode_commandWord 0x02 seed, fun s => ?_, fun s hs => ?_⟩
  · have h := exec_adlerSeed seed s
    exact ⟨_, h, rfl, value_of_exec_adlerSeed h, fun i hi => hreduces i _ (.inr hi)⟩
  · exact ⟨_, _, rfl, rfl, value_congr (t := State.reset.setSums 0 0) rfl rfl⟩
  · obtain ⟨u, h, h1, h2, -⟩ := saveAndRestoreIsExact s s hs
    exact ⟨u, h, h1, h2⟩

/-- Settles O32, by the closed form of the byte steps. -/
theorem adlerUpdateClosedForm : Obligations.AdlerUpdateClosedForm := by
  intro c s hc
  refine ⟨s.absorb c, exec_updateCommand c hc s, ?_, absorb_s2 s c⟩
  rw [sum_map_range_getD]
  exact absorb_s1 s c

/-- Settles O33: both splits absorb the concatenated bytes. -/
theorem chunkingIsInvisible : Obligations.ChunkingIsInvisible := by
  refine ⟨fun cs s rest hne hcs hin => ?_, fun cs ds s hcs hds hcs4 hds4 hflatten => ?_⟩
  · have hrun := runSteps_commandSamples (cs.map updateCommand) hin
    rw [List.length_map, issueAll_map_updateCommand hne hcs] at hrun
    exact ⟨_, hrun, absorb_s1 _ _, absorb_s2 _ _, rfl, rfl, rfl, rfl⟩
  · refine ⟨_, issueAll_map_updateCommand hcs hcs4 s, ?_⟩
    rw [issueAll_map_updateCommand hds hds4, hflatten]

/-- Settles O34: CHECKSUM absorbs all the bytes from the sums of ADLER_INIT. -/
theorem checksumIsAdler32 : Obligations.ChecksumIsAdler32 := by
  refine ⟨fun x s => ⟨_, checksum_eq x s, value_absorb_init x s, ?_, rfl, rfl, rfl, rfl⟩, rfl⟩
  rw [value_absorb_init]
  exact adler32_toNat x

/-- Settles O36: a word with an engine opcode is an engine command or illegal. -/
theorem engineRaisesNoError : Obligations.EngineRaisesNoError := by
  refine ⟨fun i s hi => ?_, fun cw s hop => ?_⟩
  · obtain ⟨t, h, -⟩ := exec_next i s
    exact ⟨t, h, exec_status_of_isEngine hi h⟩
  · cases hd : decode cw with
    | ok i =>
      obtain ⟨t, h, -⟩ := exec_next i s
      rw [← opcode_of_decode hd] at hop
      exact ⟨t, (acceptWord_of_ok hd s).trans h, .inl (exec_status_of_isEngine (isEngine_of_opcode_mem hop) h)⟩
    | error e => exact ⟨s.illegalCommand, acceptWord_of_error hd s, .inr rfl⟩

/-- Settles O37: sums below the rule's bounds do not wrap. -/
theorem noOverflowInsideACommand : Obligations.NoOverflowInsideACommand := by
  intro s c hs hc
  obtain ⟨h1, h2⟩ := absorbSums_le hs hc
  obtain ⟨hlt1, hlt2⟩ := absorbSums_lt hs (Nat.le_trans hc (by decide))
  rw [foldl_byteStep32]
  exact ⟨h1, by omega, wrap32_toNat_of_lt hlt1 hlt2⟩

/-- Settles O38, by induction on the runs: each leaves the sums of one absorb, which are bounded again. -/
theorem reductionScheduleIsUnobservable : Obligations.ReductionScheduleIsUnobservable :=
  ⟨fun _ _ hne hruns hs => scheduledUpdate_eq_absorb hne hruns hs, nmax_bound_iff⟩

/-- Settles O29: the value is the checksum of no bytes. -/
theorem adlerInitStartsAChecksum : Obligations.AdlerInitStartsAChecksum :=
  ⟨fun s => ⟨_, exec_adlerInit s, rfl, value_congr (t := State.reset) rfl rfl⟩, decode_encode .adlerInit,
    fun _ s harg => acceptWord_of_reservedBit (lo := 0) rfl harg s, rfl⟩

/-- Settles O31: each update is one absorb; from the reset state, two bytes in either order give different sums. -/
theorem adlerUpdateAbsorbsItsBytes : Obligations.AdlerUpdateAbsorbsItsBytes := by
  refine ⟨fun _ _ _ _ _ => ⟨rfl, rfl, rfl, rfl, rfl⟩,
    fun arg => ⟨decode_of_requireZero (lo := 0) rfl, decode_of_requireZero rfl, decode_of_requireZero rfl,
      decode_of_requireZero rfl, decode_commandWord 0x14 arg⟩,
    fun op arg s h => ?_, fun s hs => congrArg Host.Outcome.next (absorb_nil_of_reduced hs), fun s h1 h2 => ?_,
    fun s h1 => ?_, State.reset, State.reset.absorb [0x01, 0x02], State.reset.absorb [0x02, 0x01], rfl, rfl, by decide⟩
  · rcases h with ⟨rfl, h⟩ | ⟨rfl, h⟩ | ⟨rfl, h⟩ | ⟨rfl, h⟩ | rfl | rfl | rfl
    · exact acceptWord_of_reservedBit (lo := 0) rfl h s
    · exact acceptWord_of_reservedBit (lo := 8) rfl h s
    · exact acceptWord_of_reservedBit (lo := 16) rfl h s
    · exact acceptWord_of_reservedBit (lo := 24) rfl h s
    · exact acceptWord_of_unassigned rfl arg s
    · exact acceptWord_of_unassigned rfl arg s
    · exact acceptWord_of_unassigned rfl arg s
  · refine ⟨s.absorb [], rfl, BitVec.eq_of_toNat_eq ?_, BitVec.eq_of_toNat_eq ?_⟩
    · rw [absorb_s1, h1]; rfl
    · rw [absorb_s2, h2, List.length_nil, Nat.zero_mul]; rfl
  · refine ⟨s.absorb [0x01], rfl, BitVec.eq_of_toNat_eq ?_⟩
    rw [absorb_s1, h1]
    rfl

end Sys2Proof.Machine
end

section
/-! SUPPORT. Header values as sums, and the checks of HDR_DECODE on the numbers of the two header bytes (spec/42_header_codec.md
R130 to R139). -/

namespace Sys2Proof.Machine

/-! ## The check digit -/

/-- OR-ing five bits into a header value whose low five bits are 0 is adding them (R132). -/
theorem shiftLeft_or_or_eq_add {f0 c : Nat} (cmf : Nat) (hf0 : f0 < 256) (hlow : f0 % 32 = 0) (hc : c < 32) :
    (cmf <<< 8) ||| f0 ||| c = cmf * 256 + f0 + c := by
  obtain ⟨k, hk⟩ : ∃ k, cmf * 256 + f0 = 2 ^ 5 * k := ⟨cmf * 8 + f0 / 32, by omega⟩
  rw [← Nat.shiftLeft_add_eq_or_of_lt (i := 8) hf0, Nat.shiftLeft_eq, hk, Nat.two_pow_add_eq_or_of_lt (i := 5) hc]

theorem checkDigit_eq {cmf f0 : Nat} (hf0 : f0 < 256) (hlow : f0 % 32 = 0) :
    checkDigit cmf f0 = (31 - (cmf * 256 + f0) % 31) % 31 := by
  have hor := shiftLeft_or_or_eq_add cmf hf0 hlow (c := 0) (by decide)
  rw [Nat.or_zero, Nat.add_zero] at hor
  rw [checkDigit, hor]

/-- The encoder's header by the rule's arithmetic (R130). -/
theorem encodedHeader_eq (level : Level) :
    encodedHeader level = BitVec.ofNat 16 (0x78 * 256 + level.code.toNat * 64 +
      (31 - (0x78 * 256 + level.code.toNat * 64) % 31) % 31) := by
  cases level <;> rfl

theorem encodedHeader_mod (level : Level) : (encodedHeader level).toNat % 31 = 0 := by
  cases level <;> rfl

/-- A header value is taken apart into its two stream bytes and put together again. -/
theorem be16_extractLsb' (h : HeaderWord) : be16 (h.extractLsb' 8 8) (h.extractLsb' 0 8) = h := by
  apply BitVec.eq_of_toNat_eq
  rw [be16_toNat, extractLsb'_toNat_header, extractLsb'_toNat_header]
  omega

theorem be16_eq_ofNat (cmf flg : Byte) : be16 cmf flg = BitVec.ofNat 16 (cmf.toNat * 256 + flg.toNat) := by
  rw [← be16_toNat, BitVec.ofNat_toNat, BitVec.setWidth_eq]

/-! ## The fields the checks read -/

theorem cmfMethod_toNat (cmf : Byte) : (cmfMethod cmf).toNat = cmf.toNat % 16 := by
  have hand : cmf.toNat &&& 15 = cmf.toNat % 16 := Nat.and_two_pow_sub_one_eq_mod _ 4
  rw [cmfMethod, BitVec.toNat_setWidth, BitVec.toNat_and, show (0x0F : Byte).toNat = 15 from rfl, hand]
  omega

theorem cmfWindow_toNat (cmf : Byte) : (cmfWindow cmf).toNat = cmf.toNat / 16 := by
  have hcmf := cmf.isLt
  have hand : (cmf.toNat / 16) &&& 15 = cmf.toNat / 16 % 16 := Nat.and_two_pow_sub_one_eq_mod _ 4
  rw [cmfWindow, BitVec.toNat_setWidth, BitVec.toNat_and, BitVec.toNat_ushiftRight, Nat.shiftRight_eq_div_pow,
    show (0x0F : Byte).toNat = 15 from rfl, hand]
  omega

theorem flgDict_toNat (flg : Byte) : (flgDict flg).toNat = flg.toNat / 32 % 2 := by
  have hand : (flg.toNat / 32) &&& 1 = flg.toNat / 32 % 2 := Nat.and_two_pow_sub_one_eq_mod _ 1
  rw [flgDict, BitVec.toNat_setWidth, BitVec.toNat_and, BitVec.toNat_ushiftRight, Nat.shiftRight_eq_div_pow,
    show (0x01 : Byte).toNat = 1 from rfl, hand]
  omega

theorem cmfMethod_ne_iff (cmf : Byte) : cmfMethod cmf ≠ 8 ↔ cmf.toNat % 16 ≠ 8 := by
  rw [Ne, ← BitVec.toNat_inj, cmfMethod_toNat]
  rfl

theorem flgDict_ne_iff (flg : Byte) : flgDict flg ≠ 0 ↔ flg.toNat / 32 % 2 ≠ 0 := by
  rw [Ne, ← BitVec.toNat_inj, flgDict_toNat]
  rfl

/-- The checks in the source's order, on the numbers of the two bytes (R135). -/
theorem validateHeader_eq (cmf flg : Byte) (s : State) : s.validateHeader cmf flg =
    if cmf.toNat % 16 ≠ 8 then s.raise .invalidCompressionMethod (cmfMethod cmf)
    else if 7 < cmf.toNat / 16 then s.raise .invalidWindowSize (cmfWindow cmf)
    else if (cmf.toNat * 256 + flg.toNat) % 31 ≠ 0 then s.raise .invalidHeaderChecksum 0
    else if flg.toNat / 32 % 2 ≠ 0 then s.raise .presetDictionaryRequired 0
    else s.complete := by
  simp only [State.validateHeader, cmfMethod_ne_iff, cmfWindow_toNat, be16_toNat, flgDict_ne_iff]

/-! ## What the checks leave in STATUS -/

@[simp] theorem statusCode_raise (k : StatusKind) (info : BitVec 4) (s : State) : (s.raise k info).statusCode = k.code :=
  code_statusWord info k

@[simp] theorem statusInfo_raise (k : StatusKind) (info : BitVec 4) (s : State) : (s.raise k info).statusInfo = info :=
  info_statusWord info k

@[simp] theorem statusCode_complete (s : State) : s.complete.statusCode = 0x0 := rfl

theorem statusWord_eq_ofNat (info : BitVec 4) (k : StatusKind) :
    statusWord info k = BitVec.ofNat 8 (info.toNat * 16 + k.code.toNat) := by
  rw [← Nat.shiftLeft_eq info.toNat 4, Nat.shiftLeft_add_eq_or_of_lt k.code.isLt, ← BitVec.toNat_append, BitVec.ofNat_toNat,
    BitVec.setWidth_eq]
  rfl

/-- A raised error is seen in STATUS: OK is the only kind with code 0. -/
theorem raise_status_ne_zero {k : StatusKind} (hk : k ≠ .ok) (info : BitVec 4) (s : State) :
    (s.raise k info).status ≠ 0x00 := by
  intro h
  have hcode : k.code = 0 := by rw [← statusCode_raise k info s, State.statusCode, h]; rfl
  have hkind := ofCode_code_kind k
  rw [hcode] at hkind
  exact hk (Option.some.inj hkind).symm

/-- The STATUS word of R135 to R139, by the first check that fails. -/
def headerStatus (cmf flg : Nat) : BitVec 8 :=
  if cmf % 16 ≠ 8 then BitVec.ofNat 8 (cmf % 16 * 16 + 3)
  else if 7 < cmf / 16 then BitVec.ofNat 8 (cmf / 16 * 16 + 4)
  else if (cmf * 256 + flg) % 31 ≠ 0 then 0x05
  else if flg / 32 % 2 ≠ 0 then 0x06
  else 0x00

/-- The CODE of that word, in the same order of checks. -/
def headerCode (cmf flg : Nat) : BitVec 4 :=
  if cmf % 16 ≠ 8 then 0x3
  else if 7 < cmf / 16 then 0x4
  else if (cmf * 256 + flg) % 31 ≠ 0 then 0x5
  else if flg / 32 % 2 ≠ 0 then 0x6
  else 0x0

theorem validateHeader_status (cmf flg : Byte) (s : State) :
    (s.validateHeader cmf flg).status = headerStatus cmf.toNat flg.toNat := by
  simp only [validateHeader_eq, apply_ite State.status, State.raise_status, State.complete_status, statusWord_eq_ofNat,
    cmfMethod_toNat, cmfWindow_toNat]
  rfl

theorem validateHeader_statusCode (cmf flg : Byte) (s : State) :
    (s.validateHeader cmf flg).statusCode = headerCode cmf.toNat flg.toNat := by
  simp only [validateHeader_eq, apply_ite State.statusCode, statusCode_raise, statusCode_complete]
  rfl

theorem headerCode_eq_zero_iff {cmf flg : Nat} : headerCode cmf flg = 0x0 ↔
    cmf % 16 = 8 ∧ cmf / 16 ≤ 7 ∧ flg / 32 % 2 = 0 ∧ (cmf * 256 + flg) % 31 = 0 := by
  unfold headerCode
  split_ifs <;> simp_all

/-- The valid headers (R142). -/
theorem validateHeader_status_eq_zero_iff (cmf flg : Byte) (s : State) : (s.validateHeader cmf flg).status = 0x00 ↔
    cmf.toNat % 16 = 8 ∧ cmf.toNat / 16 ≤ 7 ∧ flg.toNat / 32 % 2 = 0 ∧ (cmf.toNat * 256 + flg.toNat) % 31 = 0 := by
  rw [validateHeader_eq]
  split_ifs with hcm hcinfo hmod hdict
  · exact iff_of_false (raise_status_ne_zero (by decide) _ _) fun ⟨h, _⟩ => hcm h
  · exact iff_of_false (raise_status_ne_zero (by decide) _ _) fun ⟨_, h, _⟩ => by omega
  · exact iff_of_false (raise_status_ne_zero (by decide) _ _) fun ⟨_, _, _, h⟩ => hmod h
  · exact iff_of_false (raise_status_ne_zero (by decide) _ _) fun ⟨_, _, h, _⟩ => hdict h
  · exact iff_of_true rfl (by omega)

theorem exec_hdrDecode (cmf flg : Byte) (s : State) : exec (.hdrDecode cmf flg) s = .next { s with
    hdrIn := BitVec.ofNat 16 (cmf.toNat * 256 + flg.toNat), status := headerStatus cmf.toNat flg.toNat } := by
  rw [← be16_eq_ofNat, ← validateHeader_status cmf flg (s.setHdrIn (be16 cmf flg))]
  exact congrArg Host.Outcome.next (validateHeader_eq_withStatus cmf flg _)

theorem exec_hdrEncode (level : Level) (s : State) :
    exec (.hdrEncode level) s = .next { s with hdrOut := encodedHeader level, status := 0x00 } := rfl

end Sys2Proof.Machine
end

section
/-! SUPPORT. How many header values end HDR_DECODE with each code, counted in blocks of the 32 values of FCHECK
(spec/42_header_codec.md R142). -/

namespace Sys2Proof.Machine

/-! ## Counting in blocks -/

theorem count_mul (p : Nat → Prop) [DecidablePred p] (m n : Nat) :
    Nat.count p (m * n) = ∑ i ∈ Finset.range m, Nat.count (fun j => p (i * n + j)) n := by
  induction m with
  | zero => simp
  | succ m ih => rw [Nat.succ_mul, Nat.count_add, ih, Finset.sum_range_succ]

theorem count_const (p : Prop) [Decidable p] (n : Nat) : Nat.count (fun _ => p) n = if p then n else 0 := by
  split_ifs with h
  · exact Nat.count_of_forall fun _ _ => h
  · exact Nat.count_of_forall_not fun _ _ => h

theorem count_congr {p q : Nat → Prop} [DecidablePred p] [DecidablePred q] {n : Nat} (h : ∀ k < n, p k ↔ q k) :
    Nat.count p n = Nat.count q n :=
  List.countP_congr fun k hk => by simpa using h k (List.mem_range.1 hk)

/-- A function with two values takes the first as often as `q` holds and the second as often as it does not. -/
theorem count_ite_eq {α : Type} [DecidableEq α] (q : Nat → Prop) [DecidablePred q] (x y z : α) (n : Nat) :
    Nat.count (fun j => (if q j then x else y) = z) n =
      (if x = z then Nat.count q n else 0) + if y = z then n - Nat.count q n else 0 := by
  induction n with
  | zero => simp
  | succ n ih =>
    have hle : Nat.count q n ≤ n := Nat.count_le q
    rw [Nat.count_succ, Nat.count_succ, ih]
    by_cases hq : q n
    · simp only [hq, if_true]
      split_ifs <;> omega
    · simp only [hq, if_false]
      split_ifs <;> omega

/-! ## The table of outcomes -/

/-- The header values with CM = 8, CINFO <= 7 and given bits 7:5 of FLG: a block of 32 FCHECK values, one of them a multiple of 31,
or two where the block starts with one. -/
theorem headerCode_block {cmf h c : Nat} (hcm : cmf % 16 = 8) (hcinfo : cmf / 16 ≤ 7) (hh : h < 8) (hc : c < 32) :
    headerCode cmf (h * 32 + c) =
      if c ≡ 60 - (4 * (cmf / 16) + h) [MOD 31] then (if h % 2 ≠ 0 then 0x6 else 0x0) else 0x5 := by
  have hmod : (cmf * 256 + (h * 32 + c)) % 31 = 0 ↔ c ≡ 60 - (4 * (cmf / 16) + h) [MOD 31] := by
    unfold Nat.ModEq
    omega
  have hdict : (h * 32 + c) / 32 = h := by omega
  simp only [headerCode, hcm, hdict, Nat.not_lt.2 hcinfo, ne_eq, hmod, not_true, if_false, ite_not]

/-- How many of a block's 32 header values end with a code. -/
def blockCount (code : BitVec 4) (cinfo h : Nat) : Nat :=
  let multiples := if (60 - (4 * cinfo + h)) % 31 < 1 then 2 else 1
  (if (if h % 2 ≠ 0 then 0x6 else 0x0) = code then multiples else 0) + if 0x5 = code then 32 - multiples else 0

/-- How many of the 256 header values with one CMF end with a code. -/
def rowCount (code : BitVec 4) (cmf : Nat) : Nat :=
  if cmf % 16 ≠ 8 then (if 0x3 = code then 256 else 0)
  else if 7 < cmf / 16 then (if 0x4 = code then 256 else 0)
  else ∑ h ∈ Finset.range 8, blockCount code (cmf / 16) h

theorem count_headerCode_block {cmf h : Nat} (hcm : cmf % 16 = 8) (hcinfo : cmf / 16 ≤ 7) (hh : h < 8) (code : BitVec 4) :
    Nat.count (fun c => headerCode cmf (h * 32 + c) = code) 32 = blockCount code (cmf / 16) h := by
  have hmultiples := Nat.count_modEq_card 32 (r := 31) (by decide) (60 - (4 * (cmf / 16) + h))
  rw [count_congr fun c hc => by rw [headerCode_block hcm hcinfo hh hc], count_ite_eq, hmultiples, blockCount]
  split_ifs <;> rfl

theorem count_headerCode (code : BitVec 4) (cmf : Nat) :
    Nat.count (fun flg => headerCode cmf flg = code) 256 = rowCount code cmf := by
  by_cases hcm : cmf % 16 = 8
  · by_cases hcinfo : 7 < cmf / 16
    · simp only [rowCount, headerCode, hcm, hcinfo, ne_eq, not_true, if_true, if_false, count_const]
    · rw [rowCount, if_neg (not_not.2 hcm), if_neg hcinfo, count_mul _ 8 32]
      exact Finset.sum_congr rfl fun h hh =>
        count_headerCode_block hcm (Nat.not_lt.1 hcinfo) (Finset.mem_range.1 hh) code
  · simp only [rowCount, headerCode, hcm, ne_eq, not_false_iff, if_true, count_const]

theorem decodeCode_ofNat {cmf flg : Nat} (hcmf : cmf < 256) (hflg : flg < 256) :
    decodeCode (BitVec.ofNat 8 cmf) (BitVec.ofNat 8 flg) = headerCode cmf flg := by
  rw [decodeCode, validateHeader_statusCode, BitVec.toNat_ofNat, BitVec.toNat_ofNat, Nat.mod_eq_of_lt hcmf,
    Nat.mod_eq_of_lt hflg]

theorem countHeaders_eq (code : BitVec 4) : countHeaders code = ((List.range 256).map (rowCount code)).sum := by
  refine congrArg List.sum (List.map_congr_left fun cmf hcmf => ?_)
  rw [← count_headerCode]
  refine List.countP_congr fun flg hflg => ?_
  rw [decodeCode_ofNat (List.mem_range.1 hcmf) (List.mem_range.1 hflg), beq_iff_eq, decide_eq_true_iff]

end Sys2Proof.Machine
end

section
/-! SUPPORT. The statements about the header codec (spec/42_header_codec.md) settled. -/

namespace Sys2Proof.Machine

/-- Settles O40: the four outputs satisfy the rule's arithmetic. -/
theorem hdrEncodeProducesTheHeader : Obligations.HdrEncodeProducesTheHeader := by
  refine ⟨fun level s => ?_, decode_encode (.hdrEncode .none), decode_encode (.hdrEncode .fast),
    decode_encode (.hdrEncode .balanced), decode_encode (.hdrEncode .best),
    fun _ s harg => acceptWord_of_reservedBit (lo := 2) rfl harg s, fun level => ?_⟩
  · rw [exec_hdrEncode, encodedHeader_eq]
  · obtain ⟨-, hcm, hcinfo, hfdict, -⟩ := encodedHeader_fields level
    exact ⟨hcm, hcinfo, hfdict⟩

/-- Settles O41: OR-ing is adding, and two digits in 0..30 with the same remainder modulo 31 are equal. -/
theorem checkDigitIsUnique : Obligations.CheckDigitIsUnique := by
  intro cmf f0 _ hf0 hlow
  have hdigit := checkDigit_eq (cmf := cmf) hf0 hlow
  have hor : ∀ c ≤ 30, ((cmf <<< 8) ||| f0 ||| c) = cmf * 256 + f0 + c :=
    fun c hc => shiftLeft_or_or_eq_add cmf hf0 hlow (by omega)
  have hle : checkDigit cmf f0 ≤ 30 := by omega
  refine ⟨hle, hor _ hle, ?_, fun c hc hmod => ?_⟩
  · rw [hor _ hle]
    omega
  · rw [hor c hc] at hmod
    omega

/-- Settles O42: the rule's table, evaluated. -/
theorem fourEncoderOutputs : Obligations.FourEncoderOutputs := by
  refine fun s => ⟨exec_hdrEncode .none s, exec_hdrEncode .fast s, exec_hdrEncode .balanced s, exec_hdrEncode .best s, ?_⟩
  decide

/-- Settles O43: the fields HDR_ENCODE leaves and its check digit are what HDR_DECODE asks for. -/
theorem encodedHeaderDecodes : Obligations.EncodedHeaderDecodes := by
  intro level s
  have hbytes := be16_extractLsb' (encodedHeader level)
  obtain ⟨-, hcm, hcinfo, hfdict, hflevel, -⟩ := encodedHeader_fields level
  obtain ⟨hcm', hcinfo', -, hfdict', -⟩ :=
    be16_fields ((encodedHeader level).extractLsb' 8 8) ((encodedHeader level).extractLsb' 0 8)
  have hmod := encodedHeader_mod level
  rw [hbytes, hcm] at hcm'
  rw [hbytes, hcinfo] at hcinfo'
  rw [hbytes, hfdict] at hfdict'
  refine ⟨_, _, exec_hdrEncode level s, rfl, (validateHeader_status_eq_zero_iff _ _ _).2
    ⟨hcm'.symm, hcinfo'.symm.trans_le (by decide), hfdict'.symm, ?_⟩, ?_, ?_, ?_, hmod⟩
  · rwa [← be16_toNat, hbytes]
  · rw [validateHeader_hdrIn, State.setHdrIn_hdrIn, hbytes, hflevel]
  · exact congrArg BitVec.toNat hcm
  · exact (congrArg BitVec.toNat hcinfo).trans_le (by decide)

/-- Settles O44: the checks on the numbers of the two bytes; the words are those the encoder makes. -/
theorem hdrDecodeValidatesInOrder : Obligations.HdrDecodeValidatesInOrder :=
  ⟨exec_hdrDecode, fun cmf flg => decode_encode (.hdrDecode cmf flg),
    fun _ s harg => acceptWord_of_reservedBit (lo := 16) rfl harg s,
    fun _ => rfl⟩

/-- Settles O45: each clause is one branch of the ordered checks. -/
theorem hdrDecodePrecedence : Obligations.HdrDecodePrecedence := by
  refine ⟨fun cmf flg s hcm => ⟨_, rfl, ?_⟩, fun cmf flg s hcm hcinfo => ⟨_, rfl, ?_⟩,
    fun cmf flg s hcm hcinfo hmod => ⟨_, rfl, ?_⟩, fun _ _ => ⟨_, rfl, rfl⟩, fun _ => ⟨_, rfl, rfl⟩,
    fun _ => ⟨_, rfl, rfl⟩⟩
  · rw [validateHeader_eq, if_pos hcm, statusInfo_raise, cmfMethod_toNat]
    exact ⟨statusCode_raise _ _ _, rfl⟩
  · rw [validateHeader_eq, if_neg (not_not.2 hcm), if_pos hcinfo, statusInfo_raise, cmfWindow_toNat]
    exact ⟨statusCode_raise _ _ _, rfl⟩
  · rw [validateHeader_eq, if_neg (not_not.2 hcm), if_neg (Nat.not_lt.2 hcinfo), if_pos hmod]
    exact ⟨statusCode_raise _ _ _, statusInfo_raise _ _ _⟩

/-- Settles O46: with CM = 8 and FDICT = 0 the header value before FCHECK is congruent to 4 * CINFO + 2 * FLEVEL + 2, which is
never 0 modulo 31; the outcomes are counted row by row. -/
theorem validHeadersAreThese32 : Obligations.ValidHeadersAreThese32 := by
  refine ⟨fun cmf flg s => ⟨_, rfl, ?_, validateHeader_status_eq_zero_iff cmf flg _⟩, fun cinfo flevel hcinfo hflevel => ?_, ?_⟩
  · rw [validateHeader_statusCode, decodeCode, validateHeader_statusCode]
  · refine ⟨31 - (4 * cinfo + 2 * flevel + 2) % 31, by omega, by omega, fun c hc => ?_⟩
    have hfdict : (flevel * 64 + c) / 32 % 2 = 0 := by omega
    have hmod : ((cinfo * 16 + 8) * 256 + (flevel * 64 + c)) % 31 = (4 * cinfo + 2 * flevel + 2 + c) % 31 := by omega
    rw [decodeCode_ofNat (by omega) (by omega), headerCode_eq_zero_iff, hfdict, hmod]
    omega
  · simp only [countHeaders_eq]
    decide +kernel

end Sys2Proof.Machine
end

section
/-! SUPPORT. What the envelope sequences do, one equation per way they end (spec/44_envelope_sequences.md R163 to R170). -/

namespace Sys2Proof.Machine

/-! ## Composing a stream -/

/-- The state CHECKSUM leaves: the sums of `x` from those of ADLER_INIT (R162). -/
def State.summed (x : Bytes) (s : State) : State := (s.setSums 1 0).complete.absorb x

theorem checksum_eq_summed (x : Bytes) (s : State) : checksum x s = .next (s.summed x) := checksum_eq x s

theorem value_summed (x : Bytes) (s : State) : (s.summed x).value = adler32 x := value_absorb_init x s

/-- The state ENV_WRAP and ENV_COMPRESS leave: the level's header in HDR_OUT, then the sums of `x`. -/
def State.composed (level : Level) (x : Bytes) (s : State) : State :=
  (s.setHdrOut (encodedHeader level)).complete.summed x

theorem envWrap_eq {ε : Type} (d : Bytes) (level : Level) (x : Bytes) (s : State) :
    (envWrap d level x s : SeqResult ε Bytes) =
      .done (headerBytes (encodedHeader level) ++ d ++ trailerBytes (adler32 x)) (s.composed level x) := by
  rw [envWrap, issue_eq_exec, exec_hdrEncode]
  simp only [afterIssue, checksum_eq_summed, value_summed]
  rfl

/-- ENV_COMPRESS is ENV_WRAP of the codec's bytes (R165). -/
theorem envCompress_eq_envWrap {ε : Type} (codec : Config.DeflateCodec ε) (x : Bytes) (level : Level) (s : State) :
    envCompress codec x level s = envWrap (codec.compress x level) level x s := rfl

theorem headerBytes_encodedHeader (level : Level) : headerBytes (encodedHeader level) =
    [0x78, BitVec.ofNat 8 (level.code.toNat * 64 + checkDigit 0x78 (level.code.toNat * 64))] := by
  cases level <;> rfl

/-- The two bytes the encoder produces pass every check of HDR_DECODE (R134). -/
theorem headerStatus_encodedHeader (level : Level) :
    headerStatus ((encodedHeader level).extractLsb' 8 8).toNat ((encodedHeader level).extractLsb' 0 8).toNat = 0x00 := by
  cases level <;> decide

/-! ## The parts of a stream -/

/-- A stream of at least 6 bytes is its two header bytes, its payload and its four trailer bytes. -/
theorem exists_parts_of_length {stream : Bytes} (h : 6 ≤ stream.length) : ∃ (cmf flg : Byte) (payload trailer : Bytes),
    trailer.length = 4 ∧ stream = cmf :: flg :: (payload ++ trailer) := by
  match stream, h with
  | cmf :: flg :: body, h =>
    rw [List.length_cons, List.length_cons] at h
    refine ⟨cmf, flg, body.take (body.length - 4), body.drop (body.length - 4), ?_, ?_⟩
    · rw [List.length_drop]
      omega
    · rw [List.take_append_drop]

/-- No bytes, fewer than the floor of R168, or all three parts. -/
theorem stream_cases (stream : Bytes) : stream = [] ∨ (1 ≤ stream.length ∧ stream.length < 6) ∨
    ∃ (cmf flg : Byte) (payload trailer : Bytes), trailer.length = 4 ∧ stream = cmf :: flg :: (payload ++ trailer) := by
  by_cases h0 : stream.length = 0
  · exact .inl (List.eq_nil_of_length_eq_zero h0)
  by_cases h6 : stream.length < 6
  · exact .inr (.inl ⟨Nat.pos_of_ne_zero h0, h6⟩)
  · exact .inr (.inr (exists_parts_of_length (Nat.not_lt.1 h6)))

/-- Writing a trailer byte of a stream is writing it in the trailer. -/
theorem set_trailer (x : Bytes) {trailer : Bytes} (h : trailer.length = 4) (k : Nat) (b : Byte) :
    (x ++ trailer).set ((x ++ trailer).length - 4 + k) b = x ++ trailer.set k b := by
  rw [List.length_append, h, Nat.add_sub_cancel, List.set_append_right _ _ (Nat.le_add_right _ _), Nat.add_sub_cancel_left]

theorem byteAt_set {x : Bytes} {k : Nat} (hk : k < x.length) (b : Byte) : byteAt (x.set k b) k = b := by
  rw [byteAt, List.getD_eq_getElem?_getD, List.getElem?_set_self hk, Option.getD_some]

theorem byteAt_append (x y : Bytes) (k : Nat) : byteAt (x ++ y) (x.length + k) = byteAt y k := by
  rw [byteAt, byteAt, List.getD_append_right _ _ _ _ (Nat.le_add_right _ _), Nat.add_sub_cancel_left]

theorem byteAt_trailer (x : Bytes) {trailer : Bytes} (h : trailer.length = 4) (k : Nat) :
    byteAt (x ++ trailer) ((x ++ trailer).length - 4 + k) = byteAt trailer k := by
  rw [List.length_append, h, Nat.add_sub_cancel, byteAt_append]

theorem trailerBytes_be32 (a b c d : Byte) : trailerBytes (be32 a b c d) = [a, b, c, d] := by
  have hlanes (v : Word) : trailerBytes v = [lane v 3, lane v 2, lane v 1, lane v 0] := rfl
  rw [hlanes, be32_eq_packLanes, lane3_packLanes, lane2_packLanes, lane1_packLanes, lane0_packLanes]

theorem expectedTrailer_append (x : Bytes) (a b c d : Byte) : expectedTrailer (x ++ [a, b, c, d]) = be32 a b c d := by
  have hlength : (x ++ [a, b, c, d]).length = x.length + 4 := List.length_append
  have h3 : x.length + 4 - 3 = x.length + 1 := by omega
  have h2 : x.length + 4 - 2 = x.length + 2 := by omega
  have h1 : x.length + 4 - 1 = x.length + 3 := by omega
  have h0 : byteAt (x ++ [a, b, c, d]) x.length = a := byteAt_append x _ 0
  simp only [expectedTrailer, hlength, Nat.add_sub_cancel, h3, h2, h1, h0, byteAt_append]
  rfl

/-- Four bytes put at the end of a stream are read as one word, from which they can be told (R169). -/
theorem trailerBytes_expectedTrailer (x : Bytes) {trailer : Bytes} (h : trailer.length = 4) :
    trailerBytes (expectedTrailer (x ++ trailer)) = trailer := by
  match trailer, h with
  | [a, b, c, d], _ => rw [expectedTrailer_append, trailerBytes_be32]

/-- Another byte in the trailer is another word (R177). -/
theorem expectedTrailer_set_ne (x : Bytes) {trailer : Bytes} (h : trailer.length = 4) {k : Nat} (hk : k < 4) {b : Byte}
    (hb : b ≠ byteAt trailer k) : expectedTrailer (x ++ trailer.set k b) ≠ expectedTrailer (x ++ trailer) := by
  intro heq
  have hsame := congrArg trailerBytes heq
  rw [trailerBytes_expectedTrailer x h, trailerBytes_expectedTrailer x (List.length_set.trans h)] at hsame
  have hbyte : byteAt (trailer.set k b) k = b := byteAt_set (h.symm ▸ hk) b
  rw [hsame] at hbyte
  exact hb hbyte.symm

theorem expectedTrailer_trailerBytes (x : Bytes) (v : Word) : expectedTrailer (x ++ trailerBytes v) = v := by
  obtain ⟨-, -, hread, -⟩ := wireFormatIsBigEndian
  exact (expectedTrailer_append x _ _ _ _).trans (hread v)

/-! ## Parsing a stream -/

section
variable {ε : Type} {s t : State} {cmf flg : Byte} {payload trailer stream r : Bytes}

theorem cmfMethod_eq_ofNat (cmf : Byte) : cmfMethod cmf = BitVec.ofNat 4 (cmf.toNat % 16) := by
  rw [← cmfMethod_toNat, BitVec.ofNat_toNat, BitVec.setWidth_eq]

theorem cmfWindow_eq_ofNat (cmf : Byte) : cmfWindow cmf = BitVec.ofNat 4 (cmf.toNat / 16) := by
  rw [← cmfWindow_toNat, BitVec.ofNat_toNat, BitVec.setWidth_eq]

theorem envUnwrap_nil (s : State) : (envUnwrap [] s : SeqResult ε Bytes) = .failed .empty s := rfl

theorem envUnwrap_of_length_lt (h1 : 1 ≤ stream.length) (h6 : stream.length < 6) (s : State) :
    (envUnwrap stream s : SeqResult ε Bytes) = .failed .tooShort s := by
  rw [envUnwrap, if_neg (Nat.ne_of_gt h1), if_pos h6]

/-- Past the 6-byte floor, ENV_UNWRAP goes by what HDR_DECODE leaves in STATUS (R166). -/
theorem envUnwrap_of_exec (h4 : trailer.length = 4) (hexec : exec (.hdrDecode cmf flg) s = .next t) :
    (envUnwrap (cmf :: flg :: (payload ++ trailer)) s : SeqResult ε Bytes) =
      if t.statusCode ≠ 0 then
        (headerError t.statusCode t.statusInfo).elim (.stopped (.unexpectedStatusCode t.statusCode)) (.failed · t)
      else .done payload t := by
  have hlength : (cmf :: flg :: (payload ++ trailer)).length = payload.length + 6 := by simp [h4]
  have hissue : issue (.hdrDecode (byteAt (cmf :: flg :: (payload ++ trailer)) 0)
      (byteAt (cmf :: flg :: (payload ++ trailer)) 1)) s = .next t := (issue_eq_exec _ s).trans hexec
  have hslice : sliceBytes (cmf :: flg :: (payload ++ trailer)) 2 (payload.length + 6 - 4) = payload := by
    simp [sliceBytes]
  rw [envUnwrap, hlength, if_neg (by omega), if_neg (by omega), hissue, hslice, afterIssue]
  cases headerError (ε := ε) t.statusCode t.statusInfo <;> rfl

theorem envUnwrap_of_statusCode_eq_zero (h4 : trailer.length = 4) (hexec : exec (.hdrDecode cmf flg) s = .next t)
    (hcode : t.statusCode = 0) :
    (envUnwrap (cmf :: flg :: (payload ++ trailer)) s : SeqResult ε Bytes) = .done payload t := by
  rw [envUnwrap_of_exec h4 hexec, if_neg (not_not.2 hcode)]

theorem envUnwrap_of_headerError (h4 : trailer.length = 4) (hexec : exec (.hdrDecode cmf flg) s = .next t)
    {e : HostError ε} (herror : headerError t.statusCode t.statusInfo = some e) :
    envUnwrap (cmf :: flg :: (payload ++ trailer)) s = .failed e t := by
  have hcode : t.statusCode ≠ 0 := by
    intro hzero
    rw [hzero] at herror
    cases herror
  rw [envUnwrap_of_exec h4 hexec, if_pos hcode, herror, Option.elim_some]

theorem envUnwrap_of_raise (h4 : trailer.length = 4) {kind : StatusKind} {info : BitVec 4}
    (hexec : exec (.hdrDecode cmf flg) s = .next (t.raise kind info)) {e : HostError ε}
    (herror : headerError kind.code info = some e) :
    envUnwrap (cmf :: flg :: (payload ++ trailer)) s = .failed e (t.raise kind info) :=
  envUnwrap_of_headerError h4 hexec (by rwa [statusCode_raise, statusInfo_raise])

/-- The checks of HDR_DECODE as ENV_UNWRAP reports them, in the source's order (R166, R175). -/
theorem envUnwrap_eq (h4 : trailer.length = 4) (hexec : exec (.hdrDecode cmf flg) s = .next t) :
    (envUnwrap (cmf :: flg :: (payload ++ trailer)) s : SeqResult ε Bytes) =
      if cmf.toNat % 16 ≠ 8 then .failed (.invalidCompressionMethod (cmfMethod cmf)) t
      else if 7 < cmf.toNat / 16 then .failed (.invalidWindowSize (cmfWindow cmf)) t
      else if (cmf.toNat * 256 + flg.toNat) % 31 ≠ 0 then .failed .invalidHeaderChecksum t
      else if flg.toNat / 32 % 2 ≠ 0 then .failed .presetDictionaryRequired t
      else .done payload t := by
  have ht := (Host.Outcome.next.inj hexec).symm.trans (validateHeader_eq cmf flg (s.setHdrIn (be16 cmf flg)))
  split_ifs at ht ⊢ <;> subst ht
  · exact envUnwrap_of_raise h4 hexec rfl
  · exact envUnwrap_of_raise h4 hexec rfl
  · exact envUnwrap_of_raise h4 hexec rfl
  · exact envUnwrap_of_raise h4 hexec rfl
  · exact envUnwrap_of_statusCode_eq_zero h4 hexec rfl

/-- ENV_UNWRAP always ends, and with an error only of the first six kinds of R175. -/
theorem envUnwrap_ends (stream : Bytes) (s : State) :
    (∃ p t, (envUnwrap stream s : SeqResult ε Bytes) = .done p t) ∨
    ∃ e t, (envUnwrap stream s : SeqResult ε Bytes) = .failed e t ∧ e.kind ≠ .checksumMismatch ∧ e.kind ≠ .deflateError := by
  rcases stream_cases stream with rfl | ⟨h1, h6⟩ | ⟨cmf, flg, payload, trailer, h4, rfl⟩
  · exact .inr ⟨.empty, s, envUnwrap_nil s, nofun, nofun⟩
  · exact .inr ⟨.tooShort, s, envUnwrap_of_length_lt h1 h6 s, nofun, nofun⟩
  · obtain ⟨t, hexec, -⟩ := exec_next (.hdrDecode cmf flg) s
    rw [envUnwrap_eq h4 hexec]
    split_ifs
    · exact .inr ⟨_, t, rfl, nofun, nofun⟩
    · exact .inr ⟨_, t, rfl, nofun, nofun⟩
    · exact .inr ⟨_, t, rfl, nofun, nofun⟩
    · exact .inr ⟨_, t, rfl, nofun, nofun⟩
    · exact .inl ⟨payload, t, rfl⟩

/-- A header that passes the checks gives the payload, from any state. -/
theorem exists_envUnwrap_eq_done (h4 : trailer.length = 4) (hvalid : headerStatus cmf.toNat flg.toNat = 0x00)
    (payload : Bytes) (s : State) :
    ∃ t, (envUnwrap (cmf :: flg :: (payload ++ trailer)) s : SeqResult ε Bytes) = .done payload t := by
  refine ⟨_, envUnwrap_of_statusCode_eq_zero h4 (exec_hdrDecode cmf flg s) ?_⟩
  rw [hvalid]
  rfl

/-- A payload comes from a stream of all three parts whose header passed the checks. -/
theorem parts_of_envUnwrap_eq_done (h : (envUnwrap stream s : SeqResult ε Bytes) = .done payload t) :
    ∃ cmf flg trailer, trailer.length = 4 ∧ stream = cmf :: flg :: (payload ++ trailer) ∧
      headerStatus cmf.toNat flg.toNat = 0x00 := by
  rcases stream_cases stream with rfl | ⟨h1, h6⟩ | ⟨cmf, flg, p, trailer, h4, rfl⟩
  · rw [envUnwrap_nil] at h
    cases h
  · rw [envUnwrap_of_length_lt h1 h6] at h
    cases h
  · obtain ⟨u, hexec, -⟩ := exec_next (.hdrDecode cmf flg) s
    rw [envUnwrap_eq h4 hexec] at h
    split_ifs at h with hcm hcinfo hmod hdict
    cases h
    refine ⟨cmf, flg, trailer, h4, rfl, ?_⟩
    rw [headerStatus, if_neg hcm, if_neg hcinfo, if_neg hmod, if_neg hdict]

/-! ## Decompressing a stream -/

variable {codec : Config.DeflateCodec ε}

theorem envDecompress_of_failed {e : HostError ε} (h : envUnwrap stream s = .failed e t) :
    envDecompress codec stream s = .failed e t := by
  rw [envDecompress, h]
  rfl

theorem envDecompress_of_deflateError (h : (envUnwrap stream s : SeqResult ε Bytes) = .done payload t) {e : ε}
    (hcodec : codec.decompress payload = .error e) : envDecompress codec stream s = .failed (.deflateError e) t := by
  rw [envDecompress, h]
  simp only [SeqResult.andThen, hcodec]

/-- With the payload decompressed, only the trailer is left to check (R167). -/
theorem envDecompress_of_ok (h : (envUnwrap stream s : SeqResult ε Bytes) = .done payload t)
    (hcodec : codec.decompress payload = .ok r) : envDecompress codec stream s =
      if adler32 r ≠ expectedTrailer stream then
        .failed (.checksumMismatch (expectedTrailer stream) (adler32 r)) (t.summed r)
      else .done r (t.summed r) := by
  rw [envDecompress, h]
  simp only [SeqResult.andThen, hcodec, checksum_eq_summed, afterIssue, value_summed]

/-- An accepted stream passed every check. -/
theorem checks_of_envDecompress_eq_done (h : envDecompress codec stream s = .done r t) :
    ∃ p u, (envUnwrap stream s : SeqResult ε Bytes) = .done p u ∧ codec.decompress p = .ok r ∧
      adler32 r = expectedTrailer stream := by
  rcases envUnwrap_ends stream s with ⟨p, u, hunwrap⟩ | ⟨e, u, hunwrap, -⟩
  · cases hcodec : codec.decompress p with
    | error e =>
      rw [envDecompress_of_deflateError hunwrap hcodec] at h
      cases h
    | ok r' =>
      rw [envDecompress_of_ok hunwrap hcodec] at h
      split_ifs at h with hvalue
      cases h
      exact ⟨p, u, hunwrap, hcodec, not_not.1 hvalue⟩
  · rw [envDecompress_of_failed hunwrap] at h
    cases h

end

/-! ## Saving the engine -/

/-- Seeding a saved VALUE gives the sums back and leaves the header registers (R178). -/
theorem exists_exec_adlerSeed_value {s : State} (hs : s.Bounded) (t : State) : ∃ u,
    exec (.adlerSeed s.value) t = .next u ∧ u.s1 = s.s1 ∧ u.s2 = s.s2 ∧ u.hdrOut = t.hdrOut ∧ u.hdrIn = t.hdrIn := by
  obtain ⟨u, hexec, h1, h2, -⟩ := saveAndRestoreIsExact s t hs
  obtain ⟨hout, hlatch, -⟩ := engineCommandsLeaveTheCodec (.adlerSeed s.value) t u rfl hexec
  exact ⟨u, hexec, h1, h2, hout, hlatch⟩

end Sys2Proof.Machine
end

section
/-! SUPPORT. The statements about the host sequences (spec/44_envelope_sequences.md) settled. -/

namespace Sys2Proof.Machine

/-- Settles O35: both splits absorb all the bytes of x. -/
theorem updateBytesIsTheSourceUpdate : Obligations.UpdateBytesIsTheSourceUpdate := by
  refine ⟨issueAll_updateBytesCommands, fun x cs s hx hcs hflatten => ?_, rfl⟩
  have hne : cs ≠ [] := by
    rintro rfl
    exact hx hflatten.symm
  have hcs4 : ∀ c ∈ cs, c.length ≤ 4 := fun c hc => (hcs c hc).2
  rw [updateBytes, issueAll_updateBytesCommands, issueAll_map_updateCommand hne hcs4, hflatten]

/-- Settles O48: ENV_COMPRESS is the composer with the codec's bytes. -/
theorem envCompressBuildsTheStream : Obligations.EnvCompressBuildsTheStream := by
  refine ⟨fun ε codec x level s => ⟨s.composed level x, ?_, rfl, value_summed x _, rfl, rfl⟩, fun _ _ _ _ => rfl⟩
  rw [envCompress_eq_envWrap, envWrap_eq, headerBytes_encodedHeader]
  rfl

/-- Settles O49, by the same composer. -/
theorem envWrapTakesTheBytesGiven : Obligations.EnvWrapTakesTheBytesGiven :=
  ⟨fun _ d x level s => ⟨s.composed level x, envWrap_eq d level x s, rfl⟩,
    fun _ codec x level s => envCompress_eq_envWrap codec x level s⟩

/-- Settles O50: past the 6-byte floor the code in STATUS decides, and HDR_DECODE leaves no other code. -/
theorem envUnwrapSlicesThePayload : Obligations.EnvUnwrapSlicesThePayload := by
  intro ε stream s
  refine ⟨fun h => h ▸ envUnwrap_nil s, fun h1 h6 => envUnwrap_of_length_lt h1 h6 s,
    fun cmf flg payload trailer h4 hstream => ?_, fun r hstop => ?_⟩
  · obtain ⟨t, hexec, -⟩ := exec_next (.hdrDecode cmf flg) s
    rw [hstream]
    refine ⟨t, hexec, fun h => envUnwrap_of_statusCode_eq_zero h4 hexec ?_,
      fun h => envUnwrap_of_headerError h4 hexec ?_, fun h => envUnwrap_of_headerError h4 hexec ?_,
      fun h => envUnwrap_of_headerError h4 hexec ?_, fun h => envUnwrap_of_headerError h4 hexec ?_⟩
    · rw [State.statusCode, h]; rfl
    · rw [h]; rfl
    · rw [h]; rfl
    · rw [h]; rfl
    · rw [h]; rfl
  · rcases envUnwrap_ends (ε := ε) stream s with ⟨p, t, h⟩ | ⟨e, t, h, -⟩
    · cases h.symm.trans hstop
    · cases h.symm.trans hstop

/-- Settles O51: ENV_UNWRAP's own order of checks, then the codec's error, then the trailer. -/
theorem envDecompressErrorPrecedence : Obligations.EnvDecompressErrorPrecedence := by
  intro ε codec s
  refine ⟨envDecompress_of_failed (envUnwrap_nil s),
    fun stream h1 h6 => envDecompress_of_failed (envUnwrap_of_length_lt h1 h6 s),
    fun cmf flg t0 t1 t2 t3 payload => ?_, fun stream e t h => ?_⟩
  · intro stream hv
    obtain ⟨t, hexec, -⟩ := exec_next (.hdrDecode cmf flg) s
    have hunwrap : (envUnwrap stream s : SeqResult ε Bytes) = _ := envUnwrap_eq (trailer := [t0, t1, t2, t3]) rfl hexec
    have htrailer : expectedTrailer stream = be32 t0 t1 t2 t3 := expectedTrailer_append (cmf :: flg :: payload) t0 t1 t2 t3
    rw [← cmfMethod_eq_ofNat, ← cmfWindow_eq_ofNat]
    split_ifs at hunwrap ⊢
    · exact ⟨t, envDecompress_of_failed hunwrap⟩
    · exact ⟨t, envDecompress_of_failed hunwrap⟩
    · exact ⟨t, envDecompress_of_failed hunwrap⟩
    · exact ⟨t, envDecompress_of_failed hunwrap⟩
    · cases hcodec : codec.decompress payload with
      | error e => exact ⟨t, envDecompress_of_deflateError hunwrap hcodec⟩
      | ok r =>
        rw [← htrailer]
        exact ⟨t.summed r, envDecompress_of_ok hunwrap hcodec⟩
  · rcases envUnwrap_ends (ε := ε) stream s with ⟨p, u, hunwrap⟩ | ⟨e', u, hunwrap, hchecksum, hdeflate⟩
    · cases hunwrap.symm.trans h
    · cases hunwrap.symm.trans h
      exact ⟨fun _ _ he => hchecksum (congrArg HostError.kind he), fun _ he => hdeflate (congrArg HostError.kind he)⟩

/-- Settles O52: the encoder's header passes the checks, and the trailer read back is the checksum written. -/
theorem envelopeRoundTrip : Obligations.EnvelopeRoundTrip := by
  intro ε codec x level s s'
  have hwrap := envWrap_eq (ε := ε) (codec.compress x level) level x s
  obtain ⟨u, hunwrap⟩ := exists_envUnwrap_eq_done (ε := ε) (trailer := trailerBytes (adler32 x)) rfl
    (headerStatus_encodedHeader level) (codec.compress x level) s'
  refine ⟨_, _, hwrap, hwrap, ⟨u, hunwrap⟩, fun hlaw => ⟨u.summed x, ?_⟩⟩
  have htrailer : expectedTrailer (headerBytes (encodedHeader level) ++ codec.compress x level ++ trailerBytes (adler32 x)) =
      adler32 x := expectedTrailer_trailerBytes _ _
  exact (envDecompress_of_ok hunwrap (hlaw x level)).trans (if_neg (not_not.2 htrailer.symm))

/-- Settles O53: the payload is as before, and the four changed bytes are read as another word. -/
theorem trailerIsChecked : Obligations.TrailerIsChecked := by
  intro ε codec stream r s t s' k b hdone hk hb
  obtain ⟨p, u, hunwrap, hcodec, hvalue⟩ := checks_of_envDecompress_eq_done hdone
  obtain ⟨cmf, flg, trailer, h4, rfl, hvalid⟩ := parts_of_envUnwrap_eq_done hunwrap
  simp only [← List.cons_append] at hb hvalue ⊢
  rw [byteAt_trailer _ h4] at hb
  rw [set_trailer _ h4, hvalue]
  obtain ⟨u', hunwrap'⟩ := exists_envUnwrap_eq_done (ε := ε) (List.length_set.trans h4) hvalid p s'
  have hne := expectedTrailer_set_ne (cmf :: flg :: p) h4 hk hb
  refine ⟨_, u'.summed r, hne, (envDecompress_of_ok hunwrap' hcodec).trans ?_⟩
  rw [hvalue]
  exact if_pos hne.symm

/-- Settles O54: appending is done after the sequence, on its result. -/
theorem appendKeepsTheBuffer : Obligations.AppendKeepsTheBuffer := by
  intro ε codec buffer x level s
  have hwrap := envWrap_eq (ε := ε) (codec.compress x level) level x s
  refine ⟨_, _, hwrap, congrArg (SeqResult.appendTo buffer) hwrap, fun k hk => List.getElem?_append_left hk,
    fun stream r u h => congrArg (SeqResult.appendTo buffer) h⟩

/-- Settles O55: ADLER_SEED restores the saved sums from whatever state the sequence left and writes no header register; from the reset
state, CHECKSUM of one byte leaves another VALUE. -/
theorem savingTheEngineAroundASequence : Obligations.SavingTheEngineAroundASequence := by
  refine ⟨fun ε α sequence s hs => ⟨fun a t hseq => ?_, fun e t hseq => ?_⟩, [0x61], State.reset,
    State.reset.summed [0x61], resetRegisters_bounded State.reset, checksum_eq_summed [0x61] State.reset, by decide⟩
  · obtain ⟨u, hexec, hrestored⟩ := exists_exec_adlerSeed_value hs t
    refine ⟨u, ?_, hrestored⟩
    simp only [savingEngine, hseq, issue_eq_exec, hexec, afterIssue]
  · obtain ⟨u, hexec, hrestored⟩ := exists_exec_adlerSeed_value hs t
    refine ⟨u, ?_, hrestored⟩
    simp only [savingEngine, hseq, issue_eq_exec, hexec, afterIssue]

end Sys2Proof.Machine
end

section
/-! SUPPORT. The statement about the STATUS codes the block writes (spec/60_exceptions.md R201, R202) settled. -/

namespace Sys2Proof.Machine

/-- The kinds the block reports without a payload (R202). -/
def noPayloadKinds : List StatusKind := [.ok, .invalidHeaderChecksum, .presetDictionaryRequired, .illegalCommand]

/-- Accepting a word ends with one write of STATUS; only HDR_DECODE's first two checks put a field of CMF into INFO. -/
theorem acceptWord_raises (cw : CommandWord) (s : State) :
    (∃ u k, k ∈ noPayloadKinds ∧ acceptWord cw s = .next (State.raise k 0 u)) ∨
    (∃ cmf flg u, decode cw = .ok (.hdrDecode cmf flg) ∧
      (acceptWord cw s = .next (State.raise .invalidCompressionMethod (cmfMethod cmf) u) ∨
       acceptWord cw s = .next (State.raise .invalidWindowSize (cmfWindow cmf) u))) := by
  rcases acceptWord_cases cw s with ⟨i, hd, h⟩ | ⟨e, -, h⟩
  · rw [h]
    rcases exec_cases i s with ⟨-, h⟩ | ⟨seed, -, h⟩ | ⟨c, -, -, h⟩ | ⟨level, -, h⟩ | ⟨cmf, flg, rfl, h⟩
    · exact .inl ⟨_, .ok, by decide, h⟩
    · exact .inl ⟨_, .ok, by decide, h⟩
    · exact .inl ⟨_, .ok, by decide, h⟩
    · exact .inl ⟨_, .ok, by decide, h⟩
    · rw [h]
      rcases validateHeader_cases cmf flg (s.setHdrIn (be16 cmf flg)) with
        ⟨-, e⟩ | ⟨-, -, e⟩ | ⟨-, -, -, e⟩ | ⟨-, -, -, -, e⟩ | ⟨-, -, -, -, e⟩ <;> rw [e]
      · exact .inr ⟨cmf, flg, _, hd, .inl rfl⟩
      · exact .inr ⟨cmf, flg, _, hd, .inr rfl⟩
      · exact .inl ⟨_, .invalidHeaderChecksum, by decide, rfl⟩
      · exact .inl ⟨_, .presetDictionaryRequired, by decide, rfl⟩
      · exact .inl ⟨_, .ok, by decide, rfl⟩
  · exact .inl ⟨s, .illegalCommand, by decide, h⟩

/-- The codes of the kinds without a payload (R201). -/
theorem code_of_mem_noPayloadKinds {k : StatusKind} (hk : k ∈ noPayloadKinds) :
    k.code = 0x0 ∨ k.code = 0x5 ∨ k.code = 0x6 ∨ k.code = 0xF := by
  revert hk
  cases k <;> decide

/-- Settles O47: the one write of STATUS has a kind without a payload, or it is that of a failed CM or CINFO check. -/
theorem blockWritesOnlyItsStatusCodes : Obligations.BlockWritesOnlyItsStatusCodes := by
  intro cw s
  rcases acceptWord_raises cw s with ⟨u, k, hk, h⟩ | ⟨cmf, flg, u, hd, h | h⟩ <;>
    refine ⟨_, h, ?_⟩ <;> rw [statusCode_raise, statusInfo_raise]
  · rcases code_of_mem_noPayloadKinds hk with hcode | hcode | hcode | hcode <;> simp [hcode]
  · exact ⟨by decide, fun _ => ⟨cmf, flg, hd, cmfMethod_toNat cmf⟩, fun h4 => absurd h4 (by decide),
      fun h3 => absurd rfl h3⟩
  · exact ⟨by decide, fun h3 => absurd h3 (by decide), fun _ => ⟨cmf, flg, hd, cmfWindow_toNat cmf⟩,
      fun _ h4 => absurd rfl h4⟩

end Sys2Proof.Machine
end

section
/-! SUPPORT. What one port sample does, by its kind, and what a run of samples does: resets in a row, legal words, two hosts' words
(spec/70_reset_and_hazards.md R230 to R239). -/

namespace Sys2Proof.Machine

/-! ## One sample -/

/-- A reset sample leaves the reset registers and what the host drives next (R230). -/
theorem step_of_rst {s : State} {p : PortSample} {rest : List PortSample} (hin : s.inputs = p :: rest) (hr : p.rst = true) :
    step s = .next { State.reset with inputs := rest } := by
  rw [step_of_inputs_cons hin, servePorts_of_rst hr]
  rfl

theorem step_of_command {s : State} {cw : CommandWord} {rest : List PortSample} (hin : s.inputs = .command cw :: rest) :
    step s = acceptWord cw { s with inputs := rest } := by
  rw [step_of_inputs_cons hin, servePorts_of_command rfl rfl]
  rfl

theorem inputs_of_step {s t : State} (h : step s = .next t) : t.inputs = s.inputs.drop 1 := by
  obtain ⟨u, hu, huin⟩ := step_next s
  rw [hu] at h
  cases h
  exact huin

theorem cmdReady_of_inputs_cons {s : State} {p : PortSample} {rest : List PortSample} (hin : s.inputs = p :: rest) :
    s.cmdReady = !p.rst := by
  rw [State.cmdReady, State.port, hin, List.headD_cons]

/-- The samples that get a word accepted are those that present it without reset (R31). -/
theorem accepted_eq_some_iff {p : PortSample} {cw : CommandWord} : p.accepted = some cw ↔ p = .command cw := by
  obtain ⟨valid, word, rst⟩ := p
  cases valid <;> cases rst <;> simp [PortSample.accepted, PortSample.command]

theorem exists_inputs_eq_of_accepted {s : State} {cw : CommandWord} (h : s.accepted = some cw) :
    ∃ rest, s.inputs = .command cw :: rest := by
  have hport : s.port = .command cw := accepted_eq_some_iff.1 h
  rw [State.port] at hport
  cases hin : s.inputs with
  | nil =>
    rw [hin] at hport
    cases hport
  | cons p rest =>
    rw [hin] at hport
    exact ⟨rest, congrArg (· :: rest) hport⟩

/-! ## Legal words and STATUS -/

/-- A word without a command is in no row of the opcode table. -/
theorem wordLegal_of_decode_eq_error {cw : CommandWord} {e : DecodeError} (h : decode cw = .error e) :
    wordLegal cw = false :=
  List.any_eq_false.2 (List.filter_eq_nil_iff.1 (filter_covers_of_decode_eq_error h))

theorem exists_decode_of_wordLegal {cw : CommandWord} (h : wordLegal cw = true) : ∃ i, decode cw = .ok i := by
  cases hd : decode cw with
  | ok i => exact ⟨i, rfl⟩
  | error e => rw [wordLegal_of_decode_eq_error hd] at h; cases h

theorem headerCode_ne_illegalCommand (cmf flg : Nat) : headerCode cmf flg ≠ 0xF := by
  unfold headerCode
  split_ifs <;> decide

/-- No command reports IllegalCommand: the code is kept for words that are none (R203). -/
theorem exec_status_ne_illegalCommand {i : Instr} {s t : State} (h : exec i s = .next t) : t.status ≠ 0x0F := by
  have hok : (0x0 : BitVec 4) ≠ 0xF := by decide
  have hcode : t.statusCode ≠ 0xF := by
    rcases exec_cases i s with ⟨-, e⟩ | ⟨_, -, e⟩ | ⟨_, -, -, e⟩ | ⟨_, -, e⟩ | ⟨cmf, flg, -, e⟩ <;>
      (rw [e] at h; cases h)
    · exact hok
    · exact hok
    · exact hok
    · exact hok
    · rw [validateHeader_statusCode]
      exact headerCode_ne_illegalCommand _ _
  exact fun hstatus => hcode (by rw [State.statusCode, hstatus]; rfl)

/-! ## Runs -/

theorem runSteps_one (s : State) : runSteps 1 s = step s := by
  obtain ⟨t, h, -⟩ := step_next s
  rw [runSteps_succ 0 h, runSteps_zero, h]

/-- A run answers a next state and takes one port sample a step (R239). -/
theorem runSteps_next (n : Nat) (s : State) : ∃ t, runSteps n s = .next t ∧ t.inputs = s.inputs.drop n := by
  induction n generalizing s with
  | zero => exact ⟨s, runSteps_zero s, rfl⟩
  | succ n ih =>
    obtain ⟨u, hu, huin⟩ := step_next s
    obtain ⟨t, ht, htin⟩ := ih u
    exact ⟨t, (runSteps_succ n hu).trans ht, by rw [htin, huin, List.drop_drop, Nat.add_comm]⟩

/-- What every step keeps, every run keeps. -/
theorem runSteps_induction {P : State → Prop} (hP : ∀ {s t : State}, P s → step s = .next t → P t) (n : Nat) {s t : State}
    (hs : P s) (h : runSteps n s = .next t) : P t := by
  induction n generalizing s with
  | zero => cases h; exact hs
  | succ n ih =>
    obtain ⟨u, hu, -⟩ := step_next s
    exact ih (hP hs hu) ((runSteps_succ n hu).symm.trans h)

/-- Resets in a row leave what the last one leaves. -/
theorem runSteps_replicate_rst {p : PortSample} (hr : p.rst = true) (k n : Nat) {s : State} {rest : List PortSample}
    (hin : s.inputs = List.replicate (k + 1) p ++ rest) :
    runSteps (k + 1 + n) s = runSteps n { State.reset with inputs := rest } := by
  induction k generalizing s with
  | zero => rw [Nat.zero_add, Nat.add_comm, runSteps_succ n (step_of_rst (rest := rest) hin hr)]
  | succ k ih => rw [Nat.add_right_comm, runSteps_succ _ (step_of_rst hin hr), ih rfl]

/-- Only legal words are still to come, and none before was illegal as far as STATUS shows. -/
def State.OnLegalSchedule (s : State) : Prop := LegalSchedule s.inputs ∧ s.status ≠ 0x0F

theorem step_onLegalSchedule {s t : State} (hs : s.OnLegalSchedule) (h : step s = .next t) : t.OnLegalSchedule := by
  obtain ⟨hlegal, hstatus⟩ := hs
  constructor
  · rw [inputs_of_step h]
    exact fun p hp => hlegal p (List.mem_of_mem_drop hp)
  · rcases step_cases s with ⟨-, e⟩ | ⟨p, rest, hin, ⟨-, e⟩ | ⟨hr, hv, e⟩ | ⟨-, -, e⟩⟩ <;> rw [e] at h
    · cases h; exact hstatus
    · cases h
      have hok : (0x00 : BitVec 8) ≠ 0x0F := by decide
      exact hok
    · have haccepted : p.accepted = some p.cmdWord := by simp [PortSample.accepted, hr, hv]
      obtain ⟨i, hi⟩ := exists_decode_of_wordLegal (hlegal p (by simp [hin]) _ haccepted)
      rw [acceptWord_of_ok hi] at h
      exact exec_status_ne_illegalCommand h
    · cases h; exact hstatus

/-! ## Two hosts -/

theorem Interleaving.length_eq {α : Type} {xs ys zs : List α} (h : Interleaving xs ys zs) :
    zs.length = xs.length + ys.length := by
  induction h with
  | nil => rfl
  | first _ ih => simp only [List.length_cons, ih]; omega
  | second _ ih => simp only [List.length_cons, ih]; omega

/-- What holds of all that each host sends holds of all that is accepted. -/
theorem Interleaving.forall_mem {α : Type} {P : α → Prop} {xs ys zs : List α} (h : Interleaving xs ys zs)
    (hxs : ∀ x ∈ xs, P x) (hys : ∀ y ∈ ys, P y) : ∀ z ∈ zs, P z := by
  induction h with
  | nil => exact hxs
  | first _ ih =>
    obtain ⟨hx, hxs⟩ := List.forall_mem_cons.1 hxs
    exact List.forall_mem_cons.2 ⟨hx, ih hxs hys⟩
  | second _ ih =>
    obtain ⟨hy, hys⟩ := List.forall_mem_cons.1 hys
    exact List.forall_mem_cons.2 ⟨hy, ih hxs hys⟩

/-- ADLER_INIT and then updates, none included, absorb the updates' bytes from the sums of ADLER_INIT. -/
theorem issueAll_adlerInit_updates {cs : List Bytes} (hcs : ∀ c ∈ cs, c.length ≤ 4) (s : State) :
    issueAll (.adlerInit :: cs.map updateCommand) s = .next ((s.setSums 1 0).complete.absorb cs.flatten) := by
  rw [issueAll_cons_of_exec (exec_adlerInit s)]
  by_cases hnil : cs = []
  · subst cs
    rfl
  · exact issueAll_map_updateCommand hnil hcs _

/-- A checksum on the port, whatever was driven before it. -/
theorem runSteps_checksum (before : List PortSample) {cs : List Bytes} (hcs : ∀ c ∈ cs, c.length ≤ 4) {s : State}
    {rest : List PortSample}
    (hin : s.inputs = before ++ (commandSamples (.adlerInit :: cs.map updateCommand) ++ rest)) :
    ∃ t, runSteps (before.length + (1 + cs.length)) s = .next t ∧ t.value = adler32 cs.flatten ∧ t.inputs = rest := by
  obtain ⟨u, hu⟩ := runSteps_append before s
  have hbefore := hu (commandSamples (.adlerInit :: cs.map updateCommand) ++ rest) (1 + cs.length)
  rw [← hin] at hbefore
  have hchecksum := runSteps_commandSamples (.adlerInit :: cs.map updateCommand) (rest := rest)
    (s := { u with inputs := commandSamples (.adlerInit :: cs.map updateCommand) ++ rest }) rfl
  rw [issueAll_adlerInit_updates hcs, List.length_cons, List.length_map, Nat.add_comm] at hchecksum
  exact ⟨_, hbefore.trans hchecksum, value_absorb_init _ _, rfl⟩

end Sys2Proof.Machine
end

section
/-! SUPPORT. The statements about reset, the command port and two hosts (spec/70_reset_and_hazards.md R230 to R239) settled. -/

namespace Sys2Proof.Machine

/-- Settles O5: the resets leave the reset registers, and the sample after them presents the word without reset. -/
theorem heldCommandIsAcceptedAfterReset : Obligations.HeldCommandIsAcceptedAfterReset := by
  intro k s cw rest hin
  rw [runSteps_replicate_rst (p := ⟨true, cw, true⟩) rfl k 1 hin, runSteps_one]
  exact step_of_command rfl

/-- Settles O7: an illegal word has no command to perform, and no command leaves the code kept for illegal words. -/
theorem runsEndWithoutFault : Obligations.RunsEndWithoutFault := by
  refine ⟨runSteps_next, fun s cw haccepted hillegal => ?_, fun n s t hlegal hstatus h => ?_⟩
  · obtain ⟨rest, hin⟩ := exists_inputs_eq_of_accepted haccepted
    obtain ⟨e, he⟩ := decode_error_of_illegal hillegal
    exact ⟨_, (step_of_command hin).trans (acceptWord_of_error he _), rfl⟩
  · obtain ⟨-, ht⟩ : t.OnLegalSchedule := runSteps_induction step_onLegalSchedule n ⟨hlegal, hstatus⟩ h
    exact ht

/-- Settles O39: each accepted chunk is one host's, so a command carries it; a run ends when both hosts' samples are used up. -/
theorem sharedPortChecksumsTheInterleaving : Obligations.SharedPortChecksumsTheInterleaving := by
  refine ⟨fun c1 c2 cs before s rest h1 h2 hcs hin => ?_, fun w1 w2 ws s hws hin => ?_⟩
  · rw [List.append_assoc] at hin
    have hrun := runSteps_checksum (before.map .command) (hcs.forall_mem h1 h2) hin
    rwa [List.length_map, ← Nat.add_assoc] at hrun
  · obtain ⟨t, ht, htin⟩ := runSteps_next (w1.length + w2.length) s
    refine ⟨t, ht, ?_⟩
    rw [htin, hin, ← hws.length_eq, ← List.length_map (f := PortSample.command), List.drop_length]

/-- Settles O1: a reset sample leaves the reset state but for the schedule. -/
theorem resetStepSetsEveryRegister : Obligations.ResetStepSetsEveryRegister :=
  ⟨fun s _ _ hin hr => ⟨_, step_of_rst hin hr, rfl, value_congr (t := State.reset) rfl rfl, _, exec_adlerInit s, rfl, rfl⟩,
    rfl, rfl, rfl, rfl, rfl, rfl⟩

/-- Settles O2: a reset sample is served alike whatever word it carries; the word before it was accepted by a step of its own. -/
theorem resetAcceptsNoCommand : Obligations.ResetAcceptsNoCommand := by
  refine ⟨fun s v cw rest hin => ⟨cmdReady_of_inputs_cons hin, ?_⟩, fun s cw p rest hin hr => ?_⟩
  · rw [step_of_rst hin rfl, step_of_rst (p := .reset) rfl rfl]
  · obtain ⟨t, ht, htin⟩ := acceptWord_next cw { s with inputs := p :: rest }
    exact ⟨t, (step_of_command hin).trans ht, ht, step_of_rst htin hr⟩

/-- Settles O4: each sample is served by its own kind and used up; a word dropped after a reset sample is never served. -/
theorem acceptedCommandIsPerformedOnce : Obligations.AcceptedCommandIsPerformedOnce := by
  refine ⟨fun s cw rest hin => ⟨cmdReady_of_inputs_cons hin, step_of_command hin⟩, fun s cw rest hin => ?_,
    fun s cw cw' rest hin => ?_⟩
  · rw [step_of_inputs_cons hin, servePorts_of_idle rfl rfl]
  · rw [runSteps_succ 1 (step_of_rst hin rfl), runSteps_one, step_of_inputs_cons rfl, servePorts_of_idle rfl rfl]
    rfl

end Sys2Proof.Machine
end
